-- ==== Sys2Proof/Word.lean ====
section
/-!
DEFINITION. The word types of the machine (spec/00_scope.md R4, R6): 8-bit bytes, 16-bit words, 12-bit addresses in
instruction words, register numbers 0 to 15.
-/

namespace Sys2Proof

/-- A general register, a timer or a memory cell: 8 bits (R4 `REG_WIDTH`, `TIMER_WIDTH`, `MEM_SIZE`). -/
abbrev Byte := BitVec 8

/-- `PC`, `I`, `IR`, a stack entry or an instruction word: 16 bits (R4 `PC_WIDTH`, `I_WIDTH`, `INSTR_WIDTH`). -/
abbrev Word := BitVec 16

/-- The field `NNN` of an instruction word: 12 bits (30_encoding.md R51). -/
abbrev Addr := BitVec 12

/-- A general register number, 0 to 15 (10_state.md R10). -/
abbrev Reg := Fin 16

end Sys2Proof
end

