-- ==== Sys2Proof/Syntax.lean ====
section
/-!
DEFINITION. The instructions: one constructor per row of spec/opcode_table.json (34 rows; the table has no row that is
only another name). Operand fields are those of 30_encoding.md R51; bits the decoder does not examine (R59) are no part
of an instruction.
-/

namespace Sys2Proof

inductive Instr where
  /-- `CLS` (00E0), R130. -/
  | cls
  /-- `RET` (00EE), R80. -/
  | ret
  /-- `JP NNN` (1NNN), R81. -/
  | jp (nnn : Addr)
  /-- `CALL NNN` (2NNN), R82. -/
  | call (nnn : Addr)
  /-- `SE Vx, NN` (3XNN), R83. -/
  | seImm (x : Reg) (nn : Byte)
  /-- `SNE Vx, NN` (4XNN), R84. -/
  | sneImm (x : Reg) (nn : Byte)
  /-- `SE Vx, Vy` (5XY0), R85. -/
  | seReg (x y : Reg)
  /-- `LD Vx, NN` (6XNN), R90. -/
  | ldImm (x : Reg) (nn : Byte)
  /-- `ADD Vx, NN` (7XNN), R91. -/
  | addImm (x : Reg) (nn : Byte)
  /-- `LD Vx, Vy` (8XY0), R92. -/
  | ldReg (x y : Reg)
  /-- `OR Vx, Vy` (8XY1), R93. -/
  | orReg (x y : Reg)
  /-- `AND Vx, Vy` (8XY2), R94. -/
  | andReg (x y : Reg)
  /-- `XOR Vx, Vy` (8XY3), R95. -/
  | xorReg (x y : Reg)
  /-- `ADD Vx, Vy` (8XY4), R100. -/
  | addReg (x y : Reg)
  /-- `SUB Vx, Vy` (8XY5), R101. -/
  | sub (x y : Reg)
  /-- `SHR Vx {, Vy}` (8XY6), R105. -/
  | shr (x y : Reg)
  /-- `SUBN Vx, Vy` (8XY7), R102. -/
  | subn (x y : Reg)
  /-- `SHL Vx {, Vy}` (8XYE), R106. -/
  | shl (x y : Reg)
  /-- `SNE Vx, Vy` (9XY0), R86. -/
  | sneReg (x y : Reg)
  /-- `LD I, NNN` (ANNN), R110. -/
  | ldI (nnn : Addr)
  /-- `JP V0, NNN` (BNNN), R87. -/
  | jpV0 (nnn : Addr)
  /-- `RND Vx, NN` (CXNN), R120. -/
  | rnd (x : Reg) (nn : Byte)
  /-- `DRW Vx, Vy, N` (DXYN), R132. -/
  | drw (x y : Reg) (n : Fin 16)
  /-- `SKP Vx` (EX9E), R125. -/
  | skp (x : Reg)
  /-- `SKNP Vx` (EXA1), R126. -/
  | sknp (x : Reg)
  /-- `LD Vx, DT` (FX07), R140. -/
  | ldVxDt (x : Reg)
  /-- `LD Vx, K` (FX0A), R127. -/
  | ldVxK (x : Reg)
  /-- `LD DT, Vx` (FX15), R141. -/
  | ldDtVx (x : Reg)
  /-- `LD ST, Vx` (FX18), R142. -/
  | ldStVx (x : Reg)
  /-- `ADD I, Vx` (FX1E), R111. -/
  | addIVx (x : Reg)
  /-- `LD F, Vx` (FX29), R112. -/
  | ldFVx (x : Reg)
  /-- `LD B, Vx` (FX33), R113. -/
  | ldBVx (x : Reg)
  /-- `LD [I], Vx` (FX55), R114. -/
  | ldMemVx (x : Reg)
  /-- `LD Vx, [I]` (FX65), R115. -/
  | ldVxMem (x : Reg)
  deriving DecidableEq, Repr

end Sys2Proof
end

