-- ==== Sys2Proof/Decode.lean ====
section
/-!
DEFINITION. Decoding (spec/30_encoding.md), total on any bytes, and after it the encoder. The opcode numbers are the
spec's, supplied there from general knowledge (D4): UNVERIFIED (log 3).
-/

namespace Sys2Proof

/-! ### Fields (R51) -/

/-- `FAM`, bits 15:12. -/
def fieldFam (w : Word) : BitVec 4 := w.extractLsb' 12 4

/-- `X`, bits 11:8, a register number. -/
def fieldX (w : Word) : Reg := (w.extractLsb' 8 4).toFin

/-- `Y`, bits 7:4, a register number. -/
def fieldY (w : Word) : Reg := (w.extractLsb' 4 4).toFin

/-- `N`, bits 3:0. -/
def fieldN (w : Word) : Fin 16 := (w.extractLsb' 0 4).toFin

/-- `NN`, bits 7:0. -/
def fieldNN (w : Word) : Byte := w.extractLsb' 0 8

/-- `NNN`, bits 11:0. -/
def fieldNNN (w : Word) : Addr := w.extractLsb' 0 12

/-! ### Decoding a word -/

/-- What decoding gives: an instruction, the named variant for a word that matches no handler (R58; 90_conflicts.md C11
asks for a named variant), or, for a byte list, that it is too short to hold a word. -/
inductive Decoded where
  | instr (i : Instr)
  | unrecognised (w : Word)
  | truncated
  deriving DecidableEq, Repr

/-- Family 0, second level on the low byte (R54); bits 11:8 are not examined. -/
def decodeFamily0 (w : Word) : Decoded :=
  match fieldNN w with
  | 0xE0#8 => .instr .cls
  | 0xEE#8 => .instr .ret
  | _      => .unrecognised w

/-- Family 8, second level on the low nibble (R55). -/
def decodeFamily8 (w : Word) : Decoded :=
  match (fieldN w).val with
  | 0x0 => .instr (.ldReg (fieldX w) (fieldY w))
  | 0x1 => .instr (.orReg (fieldX w) (fieldY w))
  | 0x2 => .instr (.andReg (fieldX w) (fieldY w))
  | 0x3 => .instr (.xorReg (fieldX w) (fieldY w))
  | 0x4 => .instr (.addReg (fieldX w) (fieldY w))
  | 0x5 => .instr (.sub (fieldX w) (fieldY w))
  | 0x6 => .instr (.shr (fieldX w) (fieldY w))
  | 0x7 => .instr (.subn (fieldX w) (fieldY w))
  | 0xE => .instr (.shl (fieldX w) (fieldY w))
  | _   => .unrecognised w

/-- Family E, second level on the low byte (R56). -/
def decodeFamilyE (w : Word) : Decoded :=
  match fieldNN w with
  | 0x9E#8 => .instr (.skp (fieldX w))
  | 0xA1#8 => .instr (.sknp (fieldX w))
  | _      => .unrecognised w

/-- Family F, second level on the low byte (R57). -/
def decodeFamilyF (w : Word) : Decoded :=
  match fieldNN w with
  | 0x07#8 => .instr (.ldVxDt (fieldX w))
  | 0x0A#8 => .instr (.ldVxK (fieldX w))
  | 0x15#8 => .instr (.ldDtVx (fieldX w))
  | 0x18#8 => .instr (.ldStVx (fieldX w))
  | 0x1E#8 => .instr (.addIVx (fieldX w))
  | 0x29#8 => .instr (.ldFVx (fieldX w))
  | 0x33#8 => .instr (.ldBVx (fieldX w))
  | 0x55#8 => .instr (.ldMemVx (fieldX w))
  | 0x65#8 => .instr (.ldVxMem (fieldX w))
  | _      => .unrecognised w

/-- First level: the family nibble (R53). A nibble is below 16, so the last line is family F. -/
def decodeWord (w : Word) : Decoded :=
  match (fieldFam w).toNat with
  | 0x0 => decodeFamily0 w
  | 0x1 => .instr (.jp (fieldNNN w))
  | 0x2 => .instr (.call (fieldNNN w))
  | 0x3 => .instr (.seImm (fieldX w) (fieldNN w))
  | 0x4 => .instr (.sneImm (fieldX w) (fieldNN w))
  | 0x5 => .instr (.seReg (fieldX w) (fieldY w))
  | 0x6 => .instr (.ldImm (fieldX w) (fieldNN w))
  | 0x7 => .instr (.addImm (fieldX w) (fieldNN w))
  | 0x8 => decodeFamily8 w
  | 0x9 => .instr (.sneReg (fieldX w) (fieldY w))
  | 0xA => .instr (.ldI (fieldNNN w))
  | 0xB => .instr (.jpV0 (fieldNNN w))
  | 0xC => .instr (.rnd (fieldX w) (fieldNN w))
  | 0xD => .instr (.drw (fieldX w) (fieldY w) (fieldN w))
  | 0xE => decodeFamilyE w
  | _   => decodeFamilyF w

/-- The byte at the lower address holds bits 15:8 (20_memory.md R36). -/
def wordOfBytes (hi lo : Byte) : Word := hi ++ lo

/-- The byte of a word stored at the lower address (R36). -/
def highByte (w : Word) : Byte := w.extractLsb' 8 8

/-- The byte of a word stored at the higher address (R36). -/
def lowByte (w : Word) : Byte := w.extractLsb' 0 8

/-- Decode the first instruction of a byte list and give back the rest; every instruction is two bytes (R50, R60). -/
def decodeBytes : List Byte → Decoded × List Byte
  | hi :: lo :: rest => (decodeWord (wordOfBytes hi lo), rest)
  | short            => (.truncated, short)

/-- The instruction the decoder reads from the table-numbered bits `w` of a row `nbits` wide; the bits above `nbits` are
zero, and the two bytes are laid out high byte first, as memory holds them (R36). -/
def decodeTableWord (nbits w : Nat) : Option Instr :=
  let word := BitVec.ofNat 16 (w % 2 ^ nbits)
  match (decodeBytes [highByte word, lowByte word]).1 with
  | .instr i => some i
  | _        => none

/-! ### Encoding: the canonical word, 0 in every ignored position (R59) -/

/-- A word from its four nibbles, `FAM X Y N`. -/
def wordXYN (fam : BitVec 4) (x y n : Fin 16) : Word :=
  fam ++ BitVec.ofFin (w := 4) x ++ BitVec.ofFin (w := 4) y ++ BitVec.ofFin (w := 4) n

/-- A word of format `XNN` or `X__`. -/
def wordXNN (fam : BitVec 4) (x : Reg) (nn : Byte) : Word := fam ++ BitVec.ofFin (w := 4) x ++ nn

/-- A word of format `ADDR`. -/
def wordNNN (fam : BitVec 4) (nnn : Addr) : Word := fam ++ nnn

/-- The canonical word of an instruction (R53 to R57, R59). -/
def encode : Instr → Word
  | .cls          => wordXNN 0x0 0 0xE0
  | .ret          => wordXNN 0x0 0 0xEE
  | .jp nnn       => wordNNN 0x1 nnn
  | .call nnn     => wordNNN 0x2 nnn
  | .seImm x nn   => wordXNN 0x3 x nn
  | .sneImm x nn  => wordXNN 0x4 x nn
  | .seReg x y    => wordXYN 0x5 x y 0
  | .ldImm x nn   => wordXNN 0x6 x nn
  | .addImm x nn  => wordXNN 0x7 x nn
  | .ldReg x y    => wordXYN 0x8 x y 0x0
  | .orReg x y    => wordXYN 0x8 x y 0x1
  | .andReg x y   => wordXYN 0x8 x y 0x2
  | .xorReg x y   => wordXYN 0x8 x y 0x3
  | .addReg x y   => wordXYN 0x8 x y 0x4
  | .sub x y      => wordXYN 0x8 x y 0x5
  | .shr x y      => wordXYN 0x8 x y 0x6
  | .subn x y     => wordXYN 0x8 x y 0x7
  | .shl x y      => wordXYN 0x8 x y 0xE
  | .sneReg x y   => wordXYN 0x9 x y 0
  | .ldI nnn      => wordNNN 0xA nnn
  | .jpV0 nnn     => wordNNN 0xB nnn
  | .rnd x nn     => wordXNN 0xC x nn
  | .drw x y n    => wordXYN 0xD x y n
  | .skp x        => wordXNN 0xE x 0x9E
  | .sknp x       => wordXNN 0xE x 0xA1
  | .ldVxDt x     => wordXNN 0xF x 0x07
  | .ldVxK x      => wordXNN 0xF x 0x0A
  | .ldDtVx x     => wordXNN 0xF x 0x15
  | .ldStVx x     => wordXNN 0xF x 0x18
  | .addIVx x     => wordXNN 0xF x 0x1E
  | .ldFVx x      => wordXNN 0xF x 0x29
  | .ldBVx x      => wordXNN 0xF x 0x33
  | .ldMemVx x    => wordXNN 0xF x 0x55
  | .ldVxMem x    => wordXNN 0xF x 0x65

/-- The instruction's bytes as memory holds them (R36). -/
def encodeBytes (i : Instr) : List Byte := [highByte (encode i), lowByte (encode i)]

/-! ### The opcode table as masks and matches (spec/opcode_table.json) -/

/-- One row: a word belongs to it when its bits under `mask` are `value`. -/
structure OpcodeRow where
  mask  : Word
  value : Word
  deriving DecidableEq, Repr

/-- The row matches the word. -/
def OpcodeRow.hits (r : OpcodeRow) (w : Word) : Bool := w &&& r.mask == r.value

/-- The table's row of an instruction. -/
def Instr.row : Instr → OpcodeRow
  | .cls        => ⟨0xF0FF, 0x00E0⟩
  | .ret        => ⟨0xF0FF, 0x00EE⟩
  | .jp _       => ⟨0xF000, 0x1000⟩
  | .call _     => ⟨0xF000, 0x2000⟩
  | .seImm _ _  => ⟨0xF000, 0x3000⟩
  | .sneImm _ _ => ⟨0xF000, 0x4000⟩
  | .seReg _ _  => ⟨0xF000, 0x5000⟩
  | .ldImm _ _  => ⟨0xF000, 0x6000⟩
  | .addImm _ _ => ⟨0xF000, 0x7000⟩
  | .ldReg _ _  => ⟨0xF00F, 0x8000⟩
  | .orReg _ _  => ⟨0xF00F, 0x8001⟩
  | .andReg _ _ => ⟨0xF00F, 0x8002⟩
  | .xorReg _ _ => ⟨0xF00F, 0x8003⟩
  | .addReg _ _ => ⟨0xF00F, 0x8004⟩
  | .sub _ _    => ⟨0xF00F, 0x8005⟩
  | .shr _ _    => ⟨0xF00F, 0x8006⟩
  | .subn _ _   => ⟨0xF00F, 0x8007⟩
  | .shl _ _    => ⟨0xF00F, 0x800E⟩
  | .sneReg _ _ => ⟨0xF000, 0x9000⟩
  | .ldI _      => ⟨0xF000, 0xA000⟩
  | .jpV0 _     => ⟨0xF000, 0xB000⟩
  | .rnd _ _    => ⟨0xF000, 0xC000⟩
  | .drw _ _ _  => ⟨0xF000, 0xD000⟩
  | .skp _      => ⟨0xF0FF, 0xE09E⟩
  | .sknp _     => ⟨0xF0FF, 0xE0A1⟩
  | .ldVxDt _   => ⟨0xF0FF, 0xF007⟩
  | .ldVxK _    => ⟨0xF0FF, 0xF00A⟩
  | .ldDtVx _   => ⟨0xF0FF, 0xF015⟩
  | .ldStVx _   => ⟨0xF0FF, 0xF018⟩
  | .addIVx _   => ⟨0xF0FF, 0xF01E⟩
  | .ldFVx _    => ⟨0xF0FF, 0xF029⟩
  | .ldBVx _    => ⟨0xF0FF, 0xF033⟩
  | .ldMemVx _  => ⟨0xF0FF, 0xF055⟩
  | .ldVxMem _  => ⟨0xF0FF, 0xF065⟩

/-- The 34 rows, in the table's order. -/
def opcodeTable : List OpcodeRow :=
  [⟨0xF0FF, 0x00E0⟩, ⟨0xF0FF, 0x00EE⟩, ⟨0xF000, 0x1000⟩, ⟨0xF000, 0x2000⟩, ⟨0xF000, 0x3000⟩, ⟨0xF000, 0x4000⟩,
   ⟨0xF000, 0x5000⟩, ⟨0xF000, 0x6000⟩, ⟨0xF000, 0x7000⟩] ++
  [⟨0xF00F, 0x8000⟩, ⟨0xF00F, 0x8001⟩, ⟨0xF00F, 0x8002⟩, ⟨0xF00F, 0x8003⟩, ⟨0xF00F, 0x8004⟩, ⟨0xF00F, 0x8005⟩,
   ⟨0xF00F, 0x8006⟩, ⟨0xF00F, 0x8007⟩, ⟨0xF00F, 0x800E⟩] ++
  [⟨0xF000, 0x9000⟩, ⟨0xF000, 0xA000⟩, ⟨0xF000, 0xB000⟩, ⟨0xF000, 0xC000⟩, ⟨0xF000, 0xD000⟩,
   ⟨0xF0FF, 0xE09E⟩, ⟨0xF0FF, 0xE0A1⟩] ++
  [⟨0xF0FF, 0xF007⟩, ⟨0xF0FF, 0xF00A⟩, ⟨0xF0FF, 0xF015⟩, ⟨0xF0FF, 0xF018⟩, ⟨0xF0FF, 0xF01E⟩, ⟨0xF0FF, 0xF029⟩,
   ⟨0xF0FF, 0xF033⟩, ⟨0xF0FF, 0xF055⟩, ⟨0xF0FF, 0xF065⟩]

/-- The bits of an instruction's words that the decoder does not examine (R59). -/
def Instr.ignoredBits : Instr → Word
  | .cls | .ret                  => 0x0F00
  | .seReg _ _ | .sneReg _ _     => 0x000F
  | _                            => 0x0000

end Sys2Proof
end

