-- ==== Sys2Proof/Config.lean ====
section
/-!
DEFINITION. What is fixed for one machine: the open parameters of spec/00_scope.md R5, and the free random byte of
10_state.md R31. The default values stand in Machine/Defaults.lean.
-/

namespace Sys2Proof

/-- Which register a shift reads (44_shifts.md R107, parameter `SHIFT_SOURCE`). -/
inductive ShiftSource where
  | vx
  | vy
  deriving DecidableEq, Repr

/-- What a sprite pixel past the framebuffer edge does (48_display.md R133, parameter `DRAW_EDGE`). -/
inductive DrawEdge where
  | wrap
  | clip
  deriving DecidableEq, Repr

/-- Who ticks the timers (40_step_cycle.md R76, R77, parameter `TIMER_TICK`). -/
inductive TimerTick where
  | perStep
  | external
  deriving DecidableEq, Repr

/-- The open parameters of R5. R34 calls them parameters of the step relation, not state.
DESIGN CHOICE (log 1): `exec` and `step` take a state and nothing else, so a state carries its machine's configuration. -/
structure Config where
  programOrigin : Word
  fontBase      : Word
  fontTable     : Vector Byte 80
  shiftSource   : ShiftSource
  drawEdge      : DrawEdge
  timerTick     : TimerTick
  deriving DecidableEq, Repr

/-- The random byte offered to the `n`-th completed step when the host has supplied none: any byte (R31, R121).
A FREE VALUE with no body (log 4): no proof can learn what it is. -/
opaque Config.freeByte : Nat → Byte

end Sys2Proof
end

