-- ==== Sys2Proof/Machine/Defaults.lean ====
section
/-!
DEFINITION. The default parameter values of spec/00_scope.md R5 and the default font of 10_state.md R28.
-/

namespace Sys2Proof

/-- `FONT_TABLE` default (R28): glyph `d` is bytes `5*d` to `5*d + 4`, top row first.
UNVERIFIED (log 2): the spec supplies these bytes from general knowledge. -/
def Config.defaultFont : Vector Byte 80 := #v[
  0xF0, 0x90, 0x90, 0x90, 0xF0,  0x20, 0x60, 0x20, 0x20, 0x70,
  0xF0, 0x10, 0xF0, 0x80, 0xF0,  0xF0, 0x10, 0xF0, 0x10, 0xF0,
  0x90, 0x90, 0xF0, 0x10, 0x10,  0xF0, 0x80, 0xF0, 0x10, 0xF0,
  0xF0, 0x80, 0xF0, 0x90, 0xF0,  0xF0, 0x10, 0x20, 0x40, 0x40,
  0xF0, 0x90, 0xF0, 0x90, 0xF0,  0xF0, 0x90, 0xF0, 0x10, 0xF0,
  0xF0, 0x90, 0xF0, 0x90, 0x90,  0xE0, 0x90, 0xE0, 0x90, 0xE0,
  0xF0, 0x80, 0x80, 0x80, 0xF0,  0xE0, 0x90, 0x90, 0x90, 0xE0,
  0xF0, 0x80, 0xF0, 0x80, 0xF0,  0xF0, 0x80, 0xF0, 0x80, 0x80]

/-- The default configuration (R5). -/
def Config.default : Config where
  programOrigin := 0x200
  fontBase      := 0x050
  fontTable     := Config.defaultFont
  shiftSource   := .vx
  drawEdge      := .wrap
  timerTick     := .perStep

end Sys2Proof
end

