-- ==== Sys2Proof/Machine/State.lean ====
section
/-!
DEFINITION. The machine's state as plain data (spec/10_state.md), its faults, and the state after reset.
-/

namespace Sys2Proof.Machine

/-- The framebuffer: 32 rows of 64 one-bit pixels; bit `x` of row `y` is `FB[y][x]` (R24; log 10). -/
abbrev Framebuffer := Vector (BitVec 64) 32

/-- Memory as the cells that differ from what an unlisted address reads as (log 11). -/
abbrev Memory := List Host.Cell

/-- The state. All fields up to `mem` are the spec's (R10 to R25); the last three are the model's own: the configuration
a machine is built with (log 1) and the random bytes offered to its steps (log 4). -/
structure State where
  /-- `V[0]` to `V[15]` (R10, R11). -/
  v     : Vector Byte 16
  /-- `PC` (R12). -/
  pc    : Word
  /-- `I` (R15). -/
  i     : Word
  /-- `STACK[0]` to `STACK[15]` (R16). -/
  stack : Vector Word 16
  /-- `SP`, an integer in 0..16 (R17). -/
  sp    : Fin 17
  /-- `DT` (R18). -/
  dt    : Byte
  /-- `ST` (R19). -/
  st    : Byte
  /-- `IR` (R21). -/
  ir    : Word
  /-- `FAULT` (R22): 0, or the code of the fault that stopped the machine (60_exceptions.md R155). -/
  fault : Byte
  /-- `KEY[0]` to `KEY[15]` (R23): bit `j` is `KEY[j]`, 1 when pressed. -/
  key   : BitVec 16
  /-- `FB` (R24). -/
  fb    : Framebuffer
  /-- `MEM` (R25, 20_memory.md). -/
  mem   : Memory
  /-- The parameters of 00_scope.md R5; no step and no host operation changes them. -/
  cfg   : Config
  /-- The `rnd` arguments the host has supplied for coming steps, oldest first (R31). -/
  rndIn : List Byte
  /-- How many completed steps have been offered a random byte; indexes the free byte. -/
  draws : Nat
  deriving DecidableEq, Repr

/-- The five faults of 60_exceptions.md R155. Each is taken as the spec describes it, by a NEXT state whose `FAULT` holds
its code (`State.raise`), so no step answers `Outcome.fault` with one (log 6). Safe: nothing is left unmodelled. -/
inductive Fault where
  /-- Raised by `CALL` with `SP = 16` (R150). Safe: recorded in `FAULT` as the spec says. -/
  | stackOverflow
  /-- Raised by `RET` with `SP = 0` (R151). Safe: recorded in `FAULT` as the spec says. -/
  | stackUnderflow
  /-- Raised by the fetch of any step with `PC > 4094` (R152). Safe: recorded in `FAULT` as the spec says. -/
  | fetchRange
  /-- Raised by `DRW` with `N > 0`, `LD B`, `LD [I]`, `LD Vx, [I]` past address 4095 (R153). Safe: recorded in `FAULT`. -/
  | dataRange
  /-- Raised by `SKP`, `SKNP` with `V[X] > 15` (R154). Safe: recorded in `FAULT` as the spec says. -/
  | keyRange
  deriving DecidableEq, Repr

/-- Why an operation has no meaning in the model. -/
inductive Refusal where
  /-- Raised by an arm of `exec` that has no meaning yet. Safe. No arm of this model uses it. -/
  | notModelled (mnemonic : String)
  /-- Raised by the host operation `TickTimers` under `TIMER_TICK = PER_STEP`, where the operation does not exist
  (40_step_cycle.md R77). Safe: no instruction and no step raises it (log 13). -/
  | noTickTimers
  deriving DecidableEq, Repr

/-- The state `Initialize` leaves on a machine of configuration `c` (R27; 70_reset_and_hazards.md R180). Memory lists
nothing, which reads as the font in the font region and 0 elsewhere. -/
def State.initial (c : Config) : State where
  v     := Vector.replicate 16 0
  pc    := c.programOrigin
  i     := 0
  stack := Vector.replicate 16 0
  sp    := 0
  dt    := 0
  st    := 0
  ir    := 0
  fault := 0
  key   := 0
  fb    := Vector.replicate 32 0
  mem   := []
  cfg   := c
  rndIn := []
  draws := 0

/-- The machine right after reset, with the default parameters of R5. -/
def State.reset : State := State.initial Config.default

end Sys2Proof.Machine
end

