-- ==== Sys2Proof/Machine/Ops.lean ====
section
/-!
DEFINITION. The named operations over registers, memory, the call stack and the framebuffer, and taking a fault. The
names are the pseudocode primitives of spec/00_scope.md R7 where there is one.
-/

namespace Sys2Proof.Machine

/-! ### Registers -/

/-- `V[x]` (R7). -/
def State.getV (s : State) (x : Reg) : Byte := s.v[x.val]

/-- `V[x] <- b` (R7). -/
def State.setV (s : State) (x : Reg) (b : Byte) : State := { s with v := s.v.set x.val b }

/-- `PC <- a` (R7). -/
def State.setPc (s : State) (a : Word) : State := { s with pc := a }

/-- `PC <- PC + 2`: past the fetched word (40_step_cycle.md R67), and once more for a skip (41_control_flow.md). -/
def State.advancePc (s : State) : State := s.setPc (s.pc + 2)

/-- `PC <- PC - 2`: the rewind of the key wait (47_input.md R127). -/
def State.rewindPc (s : State) : State := s.setPc (s.pc - 2)

/-- `I <- a` (R7). -/
def State.setI (s : State) (a : Word) : State := { s with i := a }

/-- `DT <- b` (R7). -/
def State.setDt (s : State) (b : Byte) : State := { s with dt := b }

/-- `ST <- b` (R7). -/
def State.setSt (s : State) (b : Byte) : State := { s with st := b }

/-- Replace the framebuffer. -/
def State.setFb (s : State) (f : Framebuffer) : State := { s with fb := f }

/-! ### Faults -/

/-- The code of a fault (60_exceptions.md R155). -/
def Fault.code : Fault → Byte
  | .stackOverflow  => 1
  | .stackUnderflow => 2
  | .fetchRange     => 3
  | .dataRange      => 4
  | .keyRange       => 5

/-- TAKING A FAULT (60_exceptions.md R162), applied to the state in which the step began: every register, cell, stack
entry and pixel keeps the value it had then, and `FAULT <- code`. There is no handler and no return (R164). -/
def State.raise (f : Fault) (s : State) : State := { s with fault := f.code }

/-- Halted: `FAULT != 0` (00_scope.md R9, 40_step_cycle.md R78). -/
def State.halted (s : State) : Bool := s.fault != 0

/-! ### The call stack -/

/-- Push a return address: store, then increment (10_state.md R17). With the stack full nothing changes; `CALL` has
raised its fault before. -/
def State.push (s : State) (a : Word) : State :=
  if h : s.sp.val < 16 then { s with stack := s.stack.set s.sp.val a, sp := ⟨s.sp.val + 1, by omega⟩ } else s

/-- Pop: decrement, then load `PC` (10_state.md R17). The entry keeps its value (R16). With the stack empty nothing
changes; `RET` has raised its fault before. -/
def State.popPc (s : State) : State :=
  if h : 0 < s.sp.val then
    { s with sp := ⟨s.sp.val - 1, by omega⟩, pc := s.stack[s.sp.val - 1] }
  else s

/-! ### Memory -/

/-- What an address the list does not name reads as: its contents after `Initialize` (10_state.md R27). -/
def Memory.unlisted (c : Config) (a : Nat) : Byte :=
  if h : c.fontBase.toNat ≤ a ∧ a - c.fontBase.toNat < 80 then c.fontTable[a - c.fontBase.toNat]'h.2 else 0

/-- The cell listed for an address. -/
def Memory.find (a : Nat) : Memory → Option Byte
  | []          => none
  | (k, b) :: m => if a = k then some b else Memory.find a m

/-- List a cell, addresses rising. -/
def Memory.put (a : Nat) (b : Byte) : Memory → Memory
  | []          => [(a, b)]
  | (k, d) :: m => if a < k then (a, b) :: (k, d) :: m else if a = k then (a, b) :: m else (k, d) :: Memory.put a b m

/-- Take an address off the list. -/
def Memory.drop (a : Nat) : Memory → Memory
  | []          => []
  | (k, d) :: m => if a = k then m else (k, d) :: Memory.drop a m

/-- Read one byte. -/
def Memory.read (c : Config) (m : Memory) (a : Nat) : Byte := (Memory.find a m).getD (Memory.unlisted c a)

/-- Write one byte, keeping the canonical form: writing what an unlisted address reads as takes the cell off the list. -/
def Memory.write (c : Config) (m : Memory) (a : Nat) (b : Byte) : Memory :=
  if b = Memory.unlisted c a then Memory.drop a m else Memory.put a b m

/-- The canonical form: addresses strictly rising and inside the 4096 cells (20_memory.md R35), and no cell equal to
what an unlisted address reads as. -/
abbrev Memory.wf (c : Config) (m : Memory) : Prop :=
  m.Pairwise (fun p q => p.1 < q.1) ∧ ∀ p ∈ m, p.1 < 4096 ∧ p.2 ≠ Memory.unlisted c p.1

/-- `MemRead(a, 1)` (R7). -/
def State.readByte (s : State) (a : Nat) : Byte := Memory.read s.cfg s.mem a

/-- `MemWrite(a, 1, b)` (R7). -/
def State.writeByte (s : State) (a : Nat) (b : Byte) : State := { s with mem := Memory.write s.cfg s.mem a b }

/-- The `n` bytes at `a`, `a + 1`, ..., in ascending order (20_memory.md R39). -/
def State.readBytes (s : State) (a : Nat) : Nat → List Byte
  | 0     => []
  | n + 1 => s.readByte a :: s.readBytes (a + 1) n

/-- Store bytes at `a`, `a + 1`, ..., in ascending order (20_memory.md R39). -/
def State.writeBytes (s : State) (a : Nat) : List Byte → State
  | []      => s
  | b :: bs => (s.writeByte a b).writeBytes (a + 1) bs

/-- `MemRead(a, 2)`, big-endian (20_memory.md R36). -/
def State.readWord (s : State) (a : Nat) : Word := wordOfBytes (s.readByte a) (s.readByte (a + 1))

/-! ### The framebuffer -/

/-- `FB[y][x]`. -/
def Framebuffer.pixel (f : Framebuffer) (y : Fin 32) (x : Fin 64) : Bool := (f[y.val]).getLsbD x.val

/-- `FB[y][x] <- FB[y][x] ^ 1`. -/
def Framebuffer.toggle (f : Framebuffer) (y : Fin 32) (x : Fin 64) : Framebuffer :=
  f.set y.val (f[y.val] ^^^ BitVec.twoPow 64 x.val)

/-- Every pixel off. -/
def Framebuffer.dark : Framebuffer := Vector.replicate 32 0

/-! ### Timers -/

/-- One count of a timer, stopping at 0 (40_step_cycle.md R76). -/
def countDown (b : Byte) : Byte := if 0 < b then b - 1 else b

/-- The two conditional decrements of the timer tick (R76); nothing else is read or written. -/
def State.tick (s : State) : State := { s with dt := countDown s.dt, st := countDown s.st }

/-! ### The random byte -/

/-- `RndByte()` (R7): the `rnd` argument of this step, or, where the host has supplied none, a free byte (10_state.md R31;
log 4). -/
def State.rndByte (s : State) : Byte :=
  match s.rndIn with
  | r :: _ => r
  | []     => Config.freeByte s.draws

/-- The random byte offered to a step goes with the step. DESIGN CHOICE (log 4): `RND` alone consumes one (46_random.md R121),
and a byte it did not use is dropped. -/
def State.spendRnd (s : State) : State := { s with rndIn := s.rndIn.tail, draws := s.draws + 1 }

end Sys2Proof.Machine
end

