-- ==== Sys2Proof/Machine/Flags.lean ====
section
/-!
DEFINITION. The flag computations: what VF receives (spec/10_state.md R11), and the order flag first, result second
(R14). The machine has no other flag.
-/

namespace Sys2Proof.Machine

/-- VF, register 15 (R11). -/
def vf : Reg := 15

/-- 1 when the condition holds, else 0. -/
def flagByte (b : Bool) : Byte := if b then 1 else 0

/-- Carry out of bit 7: the 8-bit sum exceeds 255 (43_arith_flags.md R100). -/
def addCarry (a b : Byte) : Bool := decide (a.toNat + b.toNat > 255)

/-- No borrow in `a - b`, equality included (43_arith_flags.md R101, R102). -/
def noBorrow (a b : Byte) : Bool := decide (a.toNat ≥ b.toNat)

/-- The bit a right shift drops (44_shifts.md R105). -/
def lowBit (b : Byte) : Bool := b.getLsbD 0

/-- The bit a left shift drops (44_shifts.md R106). -/
def highBit (b : Byte) : Bool := b.getLsbD 7

/-- VF first, the destination second, so that with X = 15 the result stands (R14). -/
def State.setFlagThenV (s : State) (x : Reg) (flag : Bool) (result : Byte) : State :=
  (s.setV vf (flagByte flag)).setV x result

end Sys2Proof.Machine
end

