-- ==== Sys2Proof/Machine/ArithFlags.lean ====
section
/-!
DEFINITION. Arithmetic with flag side effects (spec/43_arith_flags.md): both operands read first, VF written second, the
destination third (10_state.md R14).
-/

namespace Sys2Proof.Machine

/-- `ADD Vx, Vy` (R100). -/
def execAddReg (x y : Reg) (s : State) : Host.Outcome State Fault Refusal :=
  let a := s.getV x
  let b := s.getV y
  .next (s.advancePc.setFlagThenV x (addCarry a b) (a + b))

/-- `SUB Vx, Vy` (R101). -/
def execSub (x y : Reg) (s : State) : Host.Outcome State Fault Refusal :=
  let a := s.getV x
  let b := s.getV y
  .next (s.advancePc.setFlagThenV x (noBorrow a b) (a - b))

/-- `SUBN Vx, Vy` (R102). -/
def execSubn (x y : Reg) (s : State) : Host.Outcome State Fault Refusal :=
  let a := s.getV x
  let b := s.getV y
  .next (s.advancePc.setFlagThenV x (noBorrow b a) (b - a))

end Sys2Proof.Machine
end

