-- ==== Sys2Proof/Machine/Operands.lean ====
section
/-!
DEFINITION. Every operand form of the instruction set (spec/30_encoding.md R52): zero-extended immediates and registers,
`NNN + V[0]`, the glyph address, `I + k` with its range check, the shift source, key numbers, register ranges, decimal
digits, sprite coordinates.
-/

namespace Sys2Proof.Machine

/-- `zext_16(NNN)` (R52). -/
def zextAddr (a : Addr) : Word := a.setWidth 16

/-- `zext_16(b)`. -/
def zextByte (b : Byte) : Word := b.setWidth 16

/-- `NNN + V[0]`, no wrap at 4096 (41_control_flow.md R87). -/
def State.indexedTarget (s : State) (nnn : Addr) : Word := zextAddr nnn + zextByte (s.getV 0)

/-- `FONT_BASE + 5 * (b mod 16)` (45_memory_index.md R112). -/
def glyphAddress (c : Config) (b : Byte) : Word := c.fontBase + BitVec.ofNat 16 (5 * (b.toNat % 16))

/-- The value a shift reads (44_shifts.md R107). -/
def State.shiftOperand (s : State) (x y : Reg) : Byte :=
  match s.cfg.shiftSource with
  | .vx => s.getV x
  | .vy => s.getV y

/-- The effective address `I + k`, an unbounded natural (20_memory.md R40). -/
def State.dataAddress (s : State) (k : Nat) : Nat := s.i.toNat + k

/-- The `len` bytes from `I` all exist: the highest effective address is at most 4095; no byte, no condition (R40). -/
def State.dataInRange (s : State) (len : Nat) : Bool := len == 0 || decide (s.dataAddress (len - 1) ≤ 4095)

/-- The register numbers 0 to 15, ascending. -/
def allRegs : List Reg := [0, 1, 2, 3, 4, 5, 6, 7, 8, 9, 10, 11, 12, 13, 14, 15]

/-- `0 .. X` inclusive, ascending (45_memory_index.md R114, R115). -/
def regsUpTo (x : Reg) : List Reg := allRegs.take (x.val + 1)

/-- The decimal digits of a byte: hundreds, tens, ones, a byte each (45_memory_index.md R113). -/
def decimalDigits (b : Byte) : List Byte :=
  [BitVec.ofNat 8 (b.toNat / 100), BitVec.ofNat 8 (b.toNat / 10 % 10), BitVec.ofNat 8 (b.toNat % 10)]

/-- `KEY[k] == 1`. -/
def State.keyDown (s : State) (k : Nat) : Bool := s.key.getLsbD k

/-- The least pressed key, if any is pressed (47_input.md R127). -/
def State.lowestKey (s : State) : Option (Fin 16) := allRegs.find? (fun j => s.keyDown j.val)

/-- `Coord(x, y)`, the edge rule (48_display.md R133): the column and the row of a pixel, or none. -/
def coord (e : DrawEdge) (x y : Nat) : Option (Fin 64 × Fin 32) :=
  match e with
  | .wrap => some (⟨x % 64, Nat.mod_lt x (by decide)⟩, ⟨y % 32, Nat.mod_lt y (by decide)⟩)
  | .clip => if h : x < 64 ∧ y < 32 then some (⟨x, h.1⟩, ⟨y, h.2⟩) else none

end Sys2Proof.Machine
end

