-- ==== Sys2Proof/Machine/ControlFlow.lean ====
section
/-!
DEFINITION. Control flow (spec/41_control_flow.md). A meaning takes the state the step began in (`PC = A`), advances `PC`
past the word before its effect (40_step_cycle.md R67), and raises its fault on the state the step began in (R162; log 7).
-/

namespace Sys2Proof.Machine

/-- `RET` (R80). -/
def execRet (s : State) : Host.Outcome State Fault Refusal :=
  if s.sp.val = 0 then .next (s.raise .stackUnderflow) else .next s.advancePc.popPc

/-- `JP NNN` (R81). -/
def execJp (nnn : Addr) (s : State) : Host.Outcome State Fault Refusal :=
  .next (s.advancePc.setPc (zextAddr nnn))

/-- `CALL NNN` (R82): pushes the advanced `PC`. -/
def execCall (nnn : Addr) (s : State) : Host.Outcome State Fault Refusal :=
  if s.sp.val = 16 then .next (s.raise .stackOverflow)
  else .next ((s.advancePc.push s.advancePc.pc).setPc (zextAddr nnn))

/-- A conditional skip: an extra 2 when the condition holds (R83 to R86, 47_input.md R125, R126). -/
def State.skipIf (s : State) (c : Bool) : State := if c then s.advancePc.advancePc else s.advancePc

/-- `SE Vx, NN` (R83). -/
def execSeImm (x : Reg) (nn : Byte) (s : State) : Host.Outcome State Fault Refusal :=
  .next (s.skipIf (s.getV x == nn))

/-- `SNE Vx, NN` (R84). -/
def execSneImm (x : Reg) (nn : Byte) (s : State) : Host.Outcome State Fault Refusal :=
  .next (s.skipIf (s.getV x != nn))

/-- `SE Vx, Vy` (R85). -/
def execSeReg (x y : Reg) (s : State) : Host.Outcome State Fault Refusal :=
  .next (s.skipIf (s.getV x == s.getV y))

/-- `SNE Vx, Vy` (R86). -/
def execSneReg (x y : Reg) (s : State) : Host.Outcome State Fault Refusal :=
  .next (s.skipIf (s.getV x != s.getV y))

/-- `JP V0, NNN` (R87). -/
def execJpV0 (nnn : Addr) (s : State) : Host.Outcome State Fault Refusal :=
  .next (s.advancePc.setPc (s.indexedTarget nnn))

end Sys2Proof.Machine
end

