-- ==== Sys2Proof/Machine/Display.lean ====
section
/-!
DEFINITION. Display (spec/48_display.md). Drawing carries the framebuffer and the collision so far.
-/

namespace Sys2Proof.Machine

/-- `CLS` (R130). -/
def execCls (s : State) : Host.Outcome State Fault Refusal := .next (s.advancePc.setFb Framebuffer.dark)

/-- A picture being drawn: the framebuffer, and whether a toggle has turned a pixel off. -/
abbrev Canvas := Framebuffer × Bool

/-- Toggle the pixel that `Coord(x, y)` names, if it names one (R132, R133). -/
def drawPixel (e : DrawEdge) (x y : Nat) (p : Canvas) : Canvas :=
  match coord e x y with
  | none          => p
  | some (px, py) => (Framebuffer.toggle p.1 py px, p.2 || Framebuffer.pixel p.1 py px)

/-- The column offsets of a sprite row, ascending. -/
def spriteColumns : List Nat := [0, 1, 2, 3, 4, 5, 6, 7]

/-- Column offset `c` of a sprite row is bit `7 - c` (R131). -/
def spriteBit (b : Byte) (c : Nat) : Bool := b.getLsbD (7 - c)

/-- One sprite row with its left edge at column `x`, in row `y` (R132). -/
def drawRow (e : DrawEdge) (x y : Nat) (b : Byte) (p : Canvas) : Canvas :=
  spriteColumns.foldl (fun p c => if spriteBit b c then drawPixel e (x + c) y p else p) p

/-- The rows of a sprite, top row first (R131, R132). -/
def drawSprite (e : DrawEdge) (x y : Nat) (rows : List Byte) (p : Canvas) : Canvas :=
  match rows with
  | []      => p
  | b :: bs => drawSprite e x (y + 1) bs (drawRow e x y b p)

/-- `DRW Vx, Vy, N` (R132): the coordinates are read before VF is cleared (10_state.md R14). -/
def execDrw (x y : Reg) (n : Fin 16) (s : State) : Host.Outcome State Fault Refusal :=
  if s.dataInRange n.val then
    let drawn := drawSprite s.cfg.drawEdge (s.getV x).toNat (s.getV y).toNat
      (s.readBytes (s.dataAddress 0) n.val) (s.fb, false)
    .next ((s.advancePc.setFb drawn.1).setV vf (flagByte drawn.2))
  else .next (s.raise .dataRange)

end Sys2Proof.Machine
end

