-- ==== Sys2Proof/Machine/Input.lean ====
section
/-!
DEFINITION. Input (spec/47_input.md).
-/

namespace Sys2Proof.Machine

/-- `SKP Vx` (R125). -/
def execSkp (x : Reg) (s : State) : Host.Outcome State Fault Refusal :=
  let k := (s.getV x).toNat
  if k > 15 then .next (s.raise .keyRange) else .next (s.skipIf (s.keyDown k))

/-- `SKNP Vx` (R126). -/
def execSknp (x : Reg) (s : State) : Host.Outcome State Fault Refusal :=
  let k := (s.getV x).toNat
  if k > 15 then .next (s.raise .keyRange) else .next (s.skipIf (!s.keyDown k))

/-- `LD Vx, K` (R127): the least pressed key, or back to the same instruction. -/
def execLdVxK (x : Reg) (s : State) : Host.Outcome State Fault Refusal :=
  match s.lowestKey with
  | some j => .next (s.advancePc.setV x (BitVec.ofNat 8 j.val))
  | none   => .next s.advancePc.rewindPc

end Sys2Proof.Machine
end

