-- ==== Sys2Proof/Machine/MemoryIndex.lean ====
section
/-!
DEFINITION. Index register and memory (spec/45_memory_index.md). The whole address range is checked before any access
(20_memory.md R40), so a faulting instruction changes nothing but `FAULT`.
-/

namespace Sys2Proof.Machine

/-- `LD I, NNN` (R110). -/
def execLdI (nnn : Addr) (s : State) : Host.Outcome State Fault Refusal := .next (s.advancePc.setI (zextAddr nnn))

/-- `ADD I, Vx` (R111): modulo 65536, no flag. -/
def execAddIVx (x : Reg) (s : State) : Host.Outcome State Fault Refusal :=
  .next (s.advancePc.setI (s.i + zextByte (s.getV x)))

/-- `LD F, Vx` (R112). -/
def execLdFVx (x : Reg) (s : State) : Host.Outcome State Fault Refusal :=
  .next (s.advancePc.setI (glyphAddress s.cfg (s.getV x)))

/-- `LD B, Vx` (R113). -/
def execLdBVx (x : Reg) (s : State) : Host.Outcome State Fault Refusal :=
  if s.dataInRange 3 then .next (s.advancePc.writeBytes (s.dataAddress 0) (decimalDigits (s.getV x)))
  else .next (s.raise .dataRange)

/-- `LD [I], Vx` (R114). -/
def execLdMemVx (x : Reg) (s : State) : Host.Outcome State Fault Refusal :=
  if s.dataInRange (x.val + 1) then .next (s.advancePc.writeBytes (s.dataAddress 0) ((regsUpTo x).map s.getV))
  else .next (s.raise .dataRange)

/-- `V[r] <- MEM[I + r]` for each register of a list, in the list's order. -/
def State.loadRegs (s : State) : List Reg → State
  | []      => s
  | r :: rs => (s.setV r (s.readByte (s.dataAddress r.val))).loadRegs rs

/-- `LD Vx, [I]` (R115). -/
def execLdVxMem (x : Reg) (s : State) : Host.Outcome State Fault Refusal :=
  if s.dataInRange (x.val + 1) then .next (s.advancePc.loadRegs (regsUpTo x))
  else .next (s.raise .dataRange)

end Sys2Proof.Machine
end

