-- ==== Sys2Proof/Machine/Random.lean ====
section
/-!
DEFINITION. Random (spec/46_random.md).
-/

namespace Sys2Proof.Machine

/-- `RND Vx, NN` (R120). -/
def execRnd (x : Reg) (nn : Byte) (s : State) : Host.Outcome State Fault Refusal :=
  .next (s.advancePc.setV x (s.rndByte &&& nn))

end Sys2Proof.Machine
end

