-- ==== Sys2Proof/Machine/RegisterOps.lean ====
section
/-!
DEFINITION. Register operations without flag effect (spec/42_register_ops.md).
-/

namespace Sys2Proof.Machine

/-- `PC` past the word and one register written: the shape of every instruction of this file. -/
def State.finishV (s : State) (x : Reg) (b : Byte) : Host.Outcome State Fault Refusal := .next (s.advancePc.setV x b)

/-- `LD Vx, NN` (R90). -/
def execLdImm (x : Reg) (nn : Byte) (s : State) : Host.Outcome State Fault Refusal := s.finishV x nn

/-- `ADD Vx, NN` (R91): modulo 256, no flag. -/
def execAddImm (x : Reg) (nn : Byte) (s : State) : Host.Outcome State Fault Refusal := s.finishV x (s.getV x + nn)

/-- `LD Vx, Vy` (R92). -/
def execLdReg (x y : Reg) (s : State) : Host.Outcome State Fault Refusal := s.finishV x (s.getV y)

/-- `OR Vx, Vy` (R93). -/
def execOr (x y : Reg) (s : State) : Host.Outcome State Fault Refusal := s.finishV x (s.getV x ||| s.getV y)

/-- `AND Vx, Vy` (R94). -/
def execAnd (x y : Reg) (s : State) : Host.Outcome State Fault Refusal := s.finishV x (s.getV x &&& s.getV y)

/-- `XOR Vx, Vy` (R95). -/
def execXor (x y : Reg) (s : State) : Host.Outcome State Fault Refusal := s.finishV x (s.getV x ^^^ s.getV y)

end Sys2Proof.Machine
end

