-- ==== Sys2Proof/Machine/Shifts.lean ====
section
/-!
DEFINITION. Shifts by one (spec/44_shifts.md), under either `SHIFT_SOURCE` (R107).
-/

namespace Sys2Proof.Machine

/-- `SHR Vx {, Vy}` (R105). -/
def execShr (x y : Reg) (s : State) : Host.Outcome State Fault Refusal :=
  let src := s.shiftOperand x y
  .next (s.advancePc.setFlagThenV x (lowBit src) (src >>> 1))

/-- `SHL Vx {, Vy}` (R106). -/
def execShl (x y : Reg) (s : State) : Host.Outcome State Fault Refusal :=
  let src := s.shiftOperand x y
  .next (s.advancePc.setFlagThenV x (highBit src) (src <<< 1))

end Sys2Proof.Machine
end

