-- ==== Sys2Proof/Machine/Timers.lean ====
section
/-!
DEFINITION. Timer instructions (spec/49_timers.md). The tick of the same step comes after them (40_step_cycle.md R76).
-/

namespace Sys2Proof.Machine

/-- `LD Vx, DT` (R140). -/
def execLdVxDt (x : Reg) (s : State) : Host.Outcome State Fault Refusal := .next (s.advancePc.setV x s.dt)

/-- `LD DT, Vx` (R141). -/
def execLdDtVx (x : Reg) (s : State) : Host.Outcome State Fault Refusal := .next (s.advancePc.setDt (s.getV x))

/-- `LD ST, Vx` (R142). -/
def execLdStVx (x : Reg) (s : State) : Host.Outcome State Fault Refusal := .next (s.advancePc.setSt (s.getV x))

end Sys2Proof.Machine
end

