-- ==== Sys2Proof/Machine/Cycle.lean ====
section
/-!
DEFINITION. The interpreter cycle (spec/40_step_cycle.md R65): halted check, fetch, decode, dispatch, timer tick; and
placing a word where the next step fetches it. Step.lean calls these.
-/

namespace Sys2Proof.Machine

/-- Fetch (R66): the big-endian word at `PC`, or none when `PC > 4094`. -/
def State.fetch (s : State) : Option Word :=
  if s.pc.toNat > 4094 then none else some (s.readWord s.pc.toNat)

/-- The handler of an unrecognised word, `UNK` (R75): nothing but the advance of `PC`. -/
def execUnrecognised (s : State) : Host.Outcome State Fault Refusal := .next s.advancePc

/-- Decode and dispatch (R68, R69). A single word is never truncated. -/
def dispatch (w : Word) (s : State) : Host.Outcome State Fault Refusal :=
  match decodeWord w with
  | .instr i        => exec i s
  | .unrecognised _ => execUnrecognised s
  | .truncated      => execUnrecognised s

/-- The timer tick as a phase of the step, only under `TIMER_TICK = PER_STEP` (R65, R76, R77). -/
def State.stepTick (s : State) : State :=
  match s.cfg.timerTick with
  | .perStep  => s.tick
  | .external => s

/-- The end of a step whose handler left `t`: a step that raised a fault is over (R162); any other has its word in `IR`,
spends its random byte (log 4) and ticks (R65). -/
def State.finishStep (t : State) (w : Word) : State :=
  if t.halted then t else ({ t with ir := w }).spendRnd.stepTick

/-- One interpreter cycle (R65): one step is one instruction, one fetched word dispatched once, and no time passes but the
count of steps (70_reset_and_hazards.md R195). -/
def cycle (s : State) : Host.Outcome State Fault Refusal :=
  if s.halted then .next s
  else
    match s.fetch with
    | none   => .next (s.raise .fetchRange)
    | some w =>
      match dispatch w s with
      | .next t    => .next (t.finishStep w)
      | .fault r   => .fault r
      | .refused r => .refused r

/-- The state with `word` where the next step fetches: not halted, `PC` in reach of memory (where it already is, it
stays; else address 0), the two bytes at `PC` high byte first (log 12). -/
def State.placeWord (s : State) (word : Word) : State :=
  let a := if s.pc.toNat > 4094 then 0 else s.pc
  ({ s with fault := 0, pc := a }).writeBytes a.toNat [highByte word, lowByte word]

end Sys2Proof.Machine
end

