-- ==== Sys2Proof/Machine/Step.lean ====
section
/-!
DEFINITION. One step, and placing a word where it fetches. Both only call Machine/Cycle.lean.
-/

namespace Sys2Proof.Machine

/-- `Step` (spec/40_step_cycle.md R65). -/
def step (s : State) : Host.Outcome State Fault Refusal := cycle s

/-- `s` with the table-numbered instruction `w`, `nbits` wide and zero above, where `step` fetches next. -/
def State.withFetchWord (s : State) (nbits w : Nat) : State := s.placeWord (BitVec.ofNat 16 (w % 2 ^ nbits))

end Sys2Proof.Machine
end

