-- ==== Sys2Proof/Machine/HostOps.lean ====
section
/-!
DEFINITION. The host operations (spec/10_state.md R29 to R32, 40_step_cycle.md R77, 70_reset_and_hazards.md R180 to R184),
each atomic, in any order, between steps.
-/

namespace Sys2Proof.Machine

/-- The status `Load` returns (70_reset_and_hazards.md R183). -/
inductive LoadResult where
  | ok
  | sizeExceeded
  deriving DecidableEq, Repr

/-- What `ReadOutputs` returns (10_state.md R32). -/
structure Outputs where
  fb    : Framebuffer
  dt    : Byte
  st    : Byte
  fault : Byte
  deriving DecidableEq, Repr

/-- `Initialize()` (R180): the reset state of the same machine, whatever the state before. -/
def State.hostReset (s : State) : State := State.initial s.cfg

/-- `Load(image)` (R183, R184): all the bytes from `PROGRAM_ORIGIN`, or none of them. -/
def State.load (s : State) (image : List Byte) : LoadResult × State :=
  if image.length > 4096 - s.cfg.programOrigin.toNat then (.sizeExceeded, s)
  else (.ok, s.writeBytes s.cfg.programOrigin.toNat image)

/-- `SetKeys(k)` (R30). -/
def State.setKeys (s : State) (k : BitVec 16) : State := { s with key := k }

/-- `ReadOutputs()` (R32). -/
def State.readOutputs (s : State) : Outputs := ⟨s.fb, s.dt, s.st, s.fault⟩

/-- `TickTimers()` under `TIMER_TICK = EXTERNAL`: nothing while halted (40_step_cycle.md R77). -/
def State.tickTimers (s : State) : State := if s.halted then s else s.tick

/-- `Step(rnd)` (40_step_cycle.md R65): the byte belongs to this step alone, so what the host had supplied for later
steps is as before. -/
def stepWith (r : Byte) (s : State) : Host.Outcome State Fault Refusal :=
  match step { s with rndIn := [r] } with
  | .next t    => .next { t with rndIn := s.rndIn }
  | .fault e   => .fault e
  | .refused e => .refused e

/-- The six operations of R29. -/
inductive HostOp where
  | reset
  | load (image : List Byte)
  | step (r : Byte)
  | setKeys (k : BitVec 16)
  | readOutputs
  | tickTimers
  deriving DecidableEq, Repr

/-- One host operation's effect on the state. `TickTimers` does not exist under `PER_STEP` (R77): refused by name
(log 13). -/
def hostOp (o : HostOp) (s : State) : Host.Outcome State Fault Refusal :=
  match o with
  | .reset       => .next s.hostReset
  | .load image  => .next (s.load image).2
  | .step r      => stepWith r s
  | .setKeys k   => .next (s.setKeys k)
  | .readOutputs => .next s
  | .tickTimers  => if s.cfg.timerTick = .external then .next s.tickTimers else .refused .noTickTimers

/-- A sequence of host operations, in order (R29). -/
def hostRun : List HostOp → State → Host.Outcome State Fault Refusal
  | [],      s => .next s
  | o :: os, s =>
    match hostOp o s with
    | .next t    => hostRun os t
    | .fault e   => .fault e
    | .refused e => .refused e

end Sys2Proof.Machine
end

