-- ==== Sys2Proof/WellFormed.lean ====
section
/-!
DEFINITION. Well-formedness. An instruction's fields carry their widths in their types (30_encoding.md R52: X and Y may
each be any of 0 to 15 and may be equal; `NN`, `N`, `NNN` are used as they stand), so the spec leaves no condition on an
instruction to check here. A configuration has the conditions of 00_scope.md R5.
-/

namespace Sys2Proof

/-- Every instruction of the syntax is well-formed (R52: no operand value is excluded). -/
def Instr.wf (_ : Instr) : Bool := true

/-- R5: `PROGRAM_ORIGIN` is even. -/
def Config.originEven (c : Config) : Bool := c.programOrigin.toNat % 2 == 0

/-- R5: `PROGRAM_ORIGIN <= 4094`. -/
def Config.originInMemory (c : Config) : Bool := decide (c.programOrigin.toNat ≤ 4094)

/-- R5: `FONT_BASE + 80 <= 4096`. -/
def Config.fontInMemory (c : Config) : Bool := decide (c.fontBase.toNat + 80 ≤ 4096)

/-- The conditions R5 puts on the parameters. That the font and the program region do not overlap is advice there
("should not"), and the rules stay defined if they do. -/
def Config.wf (c : Config) : Bool := c.originEven && c.originInMemory && c.fontInMemory

end Sys2Proof
end

