-- ==== Sys2Proof/Safety.lean ====
section
/-!
DEFINITION. What claims about the machine are stated in: the invariant of spec/10_state.md R33, the states the host's
operations reach, and what it means for parts of the state to be kept.
-/

namespace Sys2Proof.Machine

/-- The invariant of R33. The ranges of `SP`, `V`, `DT`, `ST`, `I` and the bytes of memory are in their types. -/
structure StateInv (s : State) : Prop where
  cfgWf    : s.cfg.wf = true
  memWf    : Memory.wf s.cfg s.mem
  pcMax    : s.pc.toNat ≤ 4350
  stackMax : ∀ k : Fin 16, (s.stack[k.val]).toNat ≤ 4096
  faultMax : s.fault.toNat ≤ 5

/-- The states reachable from `Initialize` by the operations of R29, for any well-formed configuration. -/
inductive Reachable : State → Prop where
  | start (c : Config) (h : c.wf = true) : Reachable (State.initial c)
  | op (o : HostOp) {s t : State} (hs : Reachable s) (h : hostOp o s = .next t) : Reachable t

/-! ### Frames: `t` keeps this part of `s` -/

/-- Every register but those listed. -/
def KeepsRegsBut (ds : List Reg) (s t : State) : Prop := ∀ r, r ∉ ds → t.getV r = s.getV r

/-- Every byte of memory. -/
def KeepsMemory (s t : State) : Prop := ∀ a, t.readByte a = s.readByte a

/-- Every byte of memory but the `len` bytes from `lo`. -/
def KeepsMemoryOutside (lo len : Nat) (s t : State) : Prop :=
  ∀ a, ¬ (lo ≤ a ∧ a < lo + len) → t.readByte a = s.readByte a

/-- The call stack and its pointer. -/
def KeepsStack (s t : State) : Prop := t.stack = s.stack ∧ t.sp = s.sp

/-- Both timers. -/
def KeepsTimers (s t : State) : Prop := t.dt = s.dt ∧ t.st = s.st

/-- `IR`, `FAULT`, the keys, the configuration and the random bytes: what no handler but a raise touches. -/
def KeepsControl (s t : State) : Prop :=
  t.ir = s.ir ∧ t.fault = s.fault ∧ t.key = s.key ∧ t.cfg = s.cfg ∧ t.rndIn = s.rndIn ∧ t.draws = s.draws

/-- Everything but the general registers, memory and `PC`. -/
def KeepsRest (s t : State) : Prop :=
  t.i = s.i ∧ KeepsStack s t ∧ KeepsTimers s t ∧ t.fb = s.fb ∧ KeepsControl s t

/-- `PC` becomes `p` and nothing else changes. -/
def MovesOnlyPc (p : Word) (s t : State) : Prop :=
  t.pc = p ∧ KeepsRegsBut [] s t ∧ KeepsMemory s t ∧ KeepsRest s t

/-- `V[x]` becomes `b`, `PC` passes the word, and nothing else changes. -/
def WritesOnlyReg (x : Reg) (b : Byte) (s t : State) : Prop :=
  t.getV x = b ∧ t.pc = s.pc + 2 ∧ KeepsRegsBut [x] s t ∧ KeepsMemory s t ∧ KeepsRest s t

/-- `V[x]` becomes `b`; VF becomes `f` unless it is `V[x]` itself (10_state.md R14: the result is written last); `PC`
passes the word, and nothing else changes. -/
def WritesFlagAndReg (x : Reg) (f b : Byte) (s t : State) : Prop :=
  t.getV x = b ∧ (x ≠ 15 → t.getV 15 = f) ∧ t.pc = s.pc + 2 ∧ KeepsRegsBut [x, 15] s t ∧ KeepsMemory s t ∧
    KeepsRest s t

/-- `I` becomes `a`, `PC` passes the word, and nothing else changes. -/
def WritesOnlyIndex (a : Word) (s t : State) : Prop :=
  t.i = a ∧ t.pc = s.pc + 2 ∧ KeepsRegsBut [] s t ∧ KeepsMemory s t ∧ KeepsStack s t ∧ KeepsTimers s t ∧
    t.fb = s.fb ∧ KeepsControl s t

/-! ### What an instruction may write -/

/-- The general registers an instruction may write: its destination, VF for the six flag writers of 10_state.md R11, and
`V[0]` to `V[X]` for the bulk load. -/
def destRegs : Instr → List Reg
  | .ldImm x _ | .addImm x _ | .rnd x _                                    => [x]
  | .ldReg x _ | .orReg x _ | .andReg x _ | .xorReg x _                    => [x]
  | .ldVxDt x | .ldVxK x                                                   => [x]
  | .addReg x _ | .sub x _ | .subn x _ | .shr x _ | .shl x _               => [x, 15]
  | .drw _ _ _                                                             => [15]
  | .ldVxMem x                                                             => regsUpTo x
  | _                                                                      => []

/-! ### Sprites and timers -/

/-- The sprite of a `DRW` in state `s` has a set bit that falls on the pixel in row `py` and column `px`
(48_display.md R131, R132, R133). -/
def SpriteCovers (s : State) (x y : Reg) (n : Nat) (py : Fin 32) (px : Fin 64) : Prop :=
  ∃ r, r < n ∧ ∃ c, c < 8 ∧ (s.readByte (s.dataAddress r)).getLsbD (7 - c) = true ∧
    coord s.cfg.drawEdge ((s.getV x).toNat + c) ((s.getV y).toNat + r) = some (px, py)

/-- What the tick phase of a step leaves of a timer (40_step_cycle.md R76, R77). -/
def tickedTimer (c : Config) (b : Byte) : Byte :=
  if c.timerTick = .perStep then (if b = 0 then 0 else b - 1) else b

end Sys2Proof.Machine
end

