-- ==== Sys2Proof/Certificates/Slice0/Obligations.lean ====
section
/-!
DEFINITION. What is claimed of the machine. Each docstring names the rule of the spec a statement comes from. Where it
says "the spec's choice" the rule carries the spec's own mark (a decision D<n> or a derivation), and the statement's basis
is "derived". The opcode numbers in every encoding clause are the spec's, from general knowledge (D4, log 3).
-/

open Sys2Proof Sys2Proof.Machine

/-! ### Encoding -/

/-- Decoding an encoded instruction gives it back, as a word and at the front of any byte list. -/
def Obligations.DecodeOfEncodeGivesTheInstruction : Prop :=
  ∀ (i : Instr) (rest : List Byte), i.wf = true →
    decodeWord (encode i) = .instr i ∧ decodeBytes (encodeBytes i ++ rest) = (.instr i, rest)

/-- The other direction: encoding what a word decodes to gives the word with its ignored bits cleared (R59). -/
def Obligations.EncodeOfDecodeClearsOnlyIgnoredBits : Prop :=
  ∀ (w : Word) (i : Instr), decodeWord w = .instr i → encode i = w &&& ~~~ i.ignoredBits

/-- Decoding is total (R63), and the unrecognised words are exactly those R58 lists. -/
def Obligations.UnrecognisedWordsAreExactlyThoseListed : Prop :=
  ∀ w : Word,
    ((∃ i, decodeWord w = .instr i) ∨ decodeWord w = .unrecognised w) ∧
    (decodeWord w = .unrecognised w ↔
      (w.toNat / 4096 = 0x0 ∧ w.toNat % 256 ∉ [0xE0, 0xEE]) ∨
      (w.toNat / 4096 = 0x8 ∧ w.toNat % 16 ∈ [0x8, 0x9, 0xA, 0xB, 0xC, 0xD, 0xF]) ∨
      (w.toNat / 4096 = 0xE ∧ w.toNat % 256 ∉ [0x9E, 0xA1]) ∨
      (w.toNat / 4096 = 0xF ∧ w.toNat % 256 ∉ [0x07, 0x0A, 0x15, 0x18, 0x1E, 0x29, 0x33, 0x55, 0x65]))

/-- The opcode table has 34 rows, no word matches two of them, and a word decodes to an instruction exactly when it
matches that instruction's row (R63; the spec's derivation). -/
def Obligations.EveryWordMatchesOnlyTheRowItDecodesTo : Prop :=
  opcodeTable.length = 34 ∧
  (∀ (w : Word) (r q : OpcodeRow), r ∈ opcodeTable → q ∈ opcodeTable → r.hits w = true → q.hits w = true → r = q) ∧
  (∀ (w : Word) (i : Instr), decodeWord w = .instr i → i.row ∈ opcodeTable ∧ i.row.hits w = true) ∧
  (∀ (w : Word) (r : OpcodeRow), r ∈ opcodeTable → r.hits w = true → ∃ i, decodeWord w = .instr i ∧ i.row = r)

/-- Words written out from the spec's encoding tables and worked examples, one or more a family, aliases
included (R59; that the ignored bits are ignored is the spec's choice, D5). -/
def Obligations.SampleWordsDecodeAsListed : Prop :=
  ∀ p ∈ ([(0x00E0, .cls), (0x0FE0, .cls), (0x00EE, .ret), (0x0AEE, .ret), (0x1ABC, .jp 0xABC), (0x2456, .call 0x456),
      (0x3A42, .seImm 0xA 0x42), (0x4A42, .sneImm 0xA 0x42), (0x512F, .seReg 1 2), (0x9120, .sneReg 1 2)] ++
    [(0x6A2B, .ldImm 0xA 0x2B), (0x7102, .addImm 1 2), (0x8120, .ldReg 1 2), (0x8121, .orReg 1 2), (0x8122, .andReg 1 2),
      (0x8123, .xorReg 1 2), (0x8124, .addReg 1 2), (0x8125, .sub 1 2), (0x8116, .shr 1 1), (0x8127, .subn 1 2),
      (0x811E, .shl 1 1)] ++
    [(0xA300, .ldI 0x300), (0xB300, .jpV0 0x300), (0xC30F, .rnd 3 0x0F), (0xD012, .drw 0 1 2), (0xE49E, .skp 4),
      (0xE4A1, .sknp 4), (0xF207, .ldVxDt 2), (0xF10A, .ldVxK 1), (0xF015, .ldDtVx 0), (0xF518, .ldStVx 5),
      (0xF21E, .addIVx 2), (0xF029, .ldFVx 0), (0xF033, .ldBVx 0), (0xF255, .ldMemVx 2), (0xF265, .ldVxMem 2)] :
        List (Word × Instr)), decodeWord p.1 = .instr p.2

/-! ### The step cycle -/

/-- A step at a state that is not halted, whose two bytes at `PC` decode to an instruction, is that instruction's
meaning at that state; unless it raised a fault, the word is kept in `IR` and both timers tick under `PER_STEP` (R65): one
step is one instruction (R195). The model's own choices here: that the meaning starts with `PC` at the instruction and the
rest of the cycle is the step's (log 7), and that a completed step spends the byte offered to it, run by `RND` or not
(log 4; R121 has only `RND` consume one). -/
def Obligations.StepRunsTheDecodedInstruction : Prop :=
  ∀ (s t : State) (i : Instr), s.fault = 0 → s.pc.toNat ≤ 4094 →
    decodeBytes [s.readByte s.pc.toNat, s.readByte (s.pc.toNat + 1)] = (.instr i, []) → i.wf = true →
    exec i s = .next t →
      (t.fault ≠ 0 → step s = .next t) ∧
      (t.fault = 0 → step s = .next { t with
        ir := wordOfBytes (s.readByte s.pc.toNat) (s.readByte (s.pc.toNat + 1)),
        rndIn := t.rndIn.tail, draws := t.draws + 1, dt := tickedTimer t.cfg t.dt, st := tickedTimer t.cfg t.st })

/-- A step that fetches an unrecognised word sets `IR`, advances `PC` by 2 and ticks, and changes nothing else of the spec's
state (R75; that nothing counts such words is the spec's choice, D28). The random byte offered to the step is spent: that
is the model's choice, in the model's own fields `rndIn` and `draws` (log 4). -/
def Obligations.UnrecognisedWordOnlyAdvancesAndTicks : Prop :=
  ∀ (s : State) (w : Word), s.fault = 0 → s.pc.toNat ≤ 4094 →
    w = wordOfBytes (s.readByte s.pc.toNat) (s.readByte (s.pc.toNat + 1)) → decodeWord w = .unrecognised w →
    step s = .next { s with ir := w, pc := s.pc + 2, rndIn := s.rndIn.tail, draws := s.draws + 1,
                            dt := tickedTimer s.cfg s.dt, st := tickedTimer s.cfg s.st }

/-- While `FAULT` is not 0 a step changes nothing (R78; the spec's choice, D6). -/
def Obligations.HaltedStepChangesNothing : Prop :=
  ∀ s : State, s.fault ≠ 0 → step s = .next s

/-- The fetch (R66): the bytes are `MEM[PC]` (bits 15:8) and `MEM[PC+1]` (bits 7:0), at an odd `PC` as at an even one;
above 4094 the step raises `FETCH_RANGE`, code 3 (the spec's choice, D7), taken as a next state (D6, log 6), and does nothing
else; a completed step keeps the word in `IR`. -/
def Obligations.FetchReadsTheBigEndianWordAtPc : Prop :=
  ∀ s : State, s.fault = 0 →
    (s.pc.toNat ≤ 4094 → ∃ w, s.fetch = some w ∧
      w.extractLsb' 8 8 = s.readByte s.pc.toNat ∧ w.extractLsb' 0 8 = s.readByte (s.pc.toNat + 1) ∧
      (∀ t, step s = .next t → t.fault = 0 → t.ir = w)) ∧
    (s.pc.toNat > 4094 → s.fetch = none ∧ step s = .next { s with fault := 3 })

/-- Neither an instruction nor a step ever stops outside the machine: each answers a next state, a fault's entry included
(the model's reading of R162, log 6). -/
def Obligations.EveryStepAnswersANextState : Prop :=
  (∀ (i : Instr) (s : State), ∃ t, exec i s = .next t) ∧ (∀ s : State, ∃ t, step s = .next t)

/-- Faults are precise (R162; the spec's choice, D6): a step that raises one changes nothing but `FAULT`, and the code is
one of the five of R155. -/
def Obligations.AFaultingStepChangesOnlyFault : Prop :=
  ∀ s t : State, s.fault = 0 → step s = .next t → t.fault ≠ 0 →
    t = { s with fault := t.fault } ∧ t.fault ∈ [1, 2, 3, 4, 5]

/-- Which instruction raises which fault, and exactly when (R155, R161; the numbers are the spec's choice, D7, and so are
`DATA_RANGE` for the whole range at once, D10, and `KEY_RANGE`, D11). -/
def Obligations.FaultsArisePreciselyOnTheirConditions : Prop :=
  ∀ (i : Instr) (s t : State), s.fault = 0 → exec i s = .next t →
    t.fault =
      match i with
      | .call _      => if s.sp.val = 16 then 1 else 0
      | .ret         => if s.sp.val = 0 then 2 else 0
      | .drw _ _ n   => if n.val > 0 ∧ s.i.toNat + n.val - 1 > 4095 then 4 else 0
      | .ldBVx _     => if s.i.toNat + 2 > 4095 then 4 else 0
      | .ldMemVx x   => if s.i.toNat + x.val > 4095 then 4 else 0
      | .ldVxMem x   => if s.i.toNat + x.val > 4095 then 4 else 0
      | .skp x       => if (s.getV x).toNat > 15 then 5 else 0
      | .sknp x      => if (s.getV x).toNat > 15 then 5 else 0
      | _            => 0

/-- How each instruction leaves `PC` (R13; the spec's derivation). -/
def Obligations.ProgramCounterAfterEachInstruction : Prop :=
  ∀ (i : Instr) (s t : State), s.fault = 0 → exec i s = .next t →
    (t.fault ≠ 0 → t.pc = s.pc) ∧
    (t.fault = 0 → t.pc =
      match i with
      | .seImm x nn  => if s.getV x = nn then s.pc + 4 else s.pc + 2
      | .sneImm x nn => if s.getV x = nn then s.pc + 2 else s.pc + 4
      | .seReg x y   => if s.getV x = s.getV y then s.pc + 4 else s.pc + 2
      | .sneReg x y  => if s.getV x = s.getV y then s.pc + 2 else s.pc + 4
      | .skp x       => if s.key.getLsbD (s.getV x).toNat then s.pc + 4 else s.pc + 2
      | .sknp x      => if s.key.getLsbD (s.getV x).toNat then s.pc + 2 else s.pc + 4
      | .jp nnn      => nnn.setWidth 16
      | .call nnn    => nnn.setWidth 16
      | .ret         => s.stack[s.sp.val - 1]
      | .jpV0 nnn    => nnn.setWidth 16 + (s.getV 0).setWidth 16
      | .ldVxK _     => if s.key = 0 then s.pc else s.pc + 2
      | _            => s.pc + 2)

/-! ### The invariant -/

/-- Every step keeps the invariant of R33 (the spec's derivation): a canonical memory, `PC` at most 4350, stack entries at
most 4096, a fault code of R155, a well-formed configuration. -/
def Obligations.EveryStepKeepsTheStateInvariant : Prop :=
  ∀ s t : State, StateInv s → step s = .next t → StateInv t

/-- The reset state, of the default and of every well-formed configuration, meets the invariant. -/
def Obligations.ResetMeetsTheStateInvariant : Prop :=
  StateInv State.reset ∧ ∀ c : Config, c.wf = true → StateInv (State.initial c)

/-- The invariant holds in every state the host's operations reach from `Initialize` (R33, R29). -/
def Obligations.ReachableStatesMeetTheInvariant : Prop :=
  ∀ s : State, Reachable s → StateInv s

/-! ### Whole-machine frames -/

/-- An instruction writes only its destination register, VF where 10_state.md R11 lists it as a flag writer, and the
bulk load only `V[0]` to `V[X]`: every other register is unchanged (R11; the spec's choice, D19). -/
def Obligations.RegistersChangeOnlyWhereTheyAreDestinations : Prop :=
  ∀ (i : Instr) (s t : State), exec i s = .next t → KeepsRegsBut (destRegs i) s t

/-- Only the two stores change memory (20_memory.md R35: "No other instruction reads or writes memory"). -/
def Obligations.OnlyTheTwoStoresChangeMemory : Prop :=
  ∀ (i : Instr) (s t : State), exec i s = .next t → (∀ x, i ≠ .ldBVx x ∧ i ≠ .ldMemVx x) → KeepsMemory s t

/-- No instruction but `CALL` writes the stack, none but `CALL` and `RET` moves `SP`, and `SP` moves by one (R16, R17). -/
def Obligations.OnlyCallAndReturnTouchTheCallStack : Prop :=
  ∀ (i : Instr) (s t : State), exec i s = .next t →
    ((∀ a, i ≠ .call a) → t.stack = s.stack) ∧
    ((∀ a, i ≠ .call a) → i ≠ .ret → t.sp = s.sp) ∧
    (∀ a, i = .call a → s.sp.val < 16 → t.sp.val = s.sp.val + 1) ∧
    (i = .ret → 0 < s.sp.val → t.sp.val = s.sp.val - 1)

/-- Only `CLS` and `DRW` change the framebuffer (R24), only `LD I`, `ADD I` and `LD F` write `I` (R15), only `LD DT` writes
`DT` and only `LD ST` writes `ST` in a handler (R18, R19). -/
def Obligations.DisplayIndexAndTimersChangeOnlyByTheirInstructions : Prop :=
  ∀ (i : Instr) (s t : State), exec i s = .next t →
    (i ≠ .cls → (∀ x y n, i ≠ .drw x y n) → t.fb = s.fb) ∧
    ((∀ a, i ≠ .ldI a) → (∀ x, i ≠ .addIVx x ∧ i ≠ .ldFVx x) → t.i = s.i) ∧
    ((∀ x, i ≠ .ldDtVx x) → t.dt = s.dt) ∧
    ((∀ x, i ≠ .ldStVx x) → t.st = s.st)

/-- `KEY` is read-only to the interpreter (R23): no step changes it, and of the host's operations only `SetKeys` and
`Initialize` do. No step and no host operation changes the configuration (R34; log 1). -/
def Obligations.KeysAndConfigurationAreFixedDuringSteps : Prop :=
  (∀ s t : State, step s = .next t → t.key = s.key ∧ t.cfg = s.cfg) ∧
  (∀ (o : HostOp) (s t : State), hostOp o s = .next t →
    t.cfg = s.cfg ∧ (o ≠ .reset → (∀ k, o ≠ .setKeys k) → t.key = s.key))

/-- A step that does not execute `RND` behaves the same for every random byte (R121): changing what random bytes are
supplied (held as the model chose, log 4) changes nothing else in the result of any other instruction. -/
def Obligations.RandomByteReachesOnlyRnd : Prop :=
  ∀ (i : Instr) (s t : State) (bytes : List Byte) (n : Nat), (∀ x nn, i ≠ .rnd x nn) → exec i s = .next t →
    exec i { s with rndIn := bytes, draws := n } = .next { t with rndIn := bytes, draws := n }

/-- No instruction reads `ST` (R19) or `IR` (R21): changing them changes nothing else in the result of any instruction that
does not itself write `ST`. -/
def Obligations.NoInstructionReadsSoundTimerOrInstructionRegister : Prop :=
  ∀ (i : Instr) (s t : State) (a : Word) (b : Byte), (∀ x, i ≠ .ldStVx x) → exec i s = .next t →
    exec i { s with ir := a, st := b } = .next { t with ir := a, st := b }

/-! ### Control flow -/

/-- `RET` (R80): its encoding; with an entry on the stack it decrements `SP`, then loads `PC` from the popped entry, which
keeps its value (the spec's choice, D22), and changes nothing else; with `SP = 0` it raises `STACK_UNDERFLOW`, taken as a
next state (D6, log 6), and changes nothing else. -/
def Obligations.ReturnPopsTheReturnAddress : Prop :=
  (∀ w : Word, w &&& 0xF0FF = 0x00EE → decodeWord w = .instr .ret) ∧
  (∀ s : State, 0 < s.sp.val → ∃ t, exec .ret s = .next t ∧
    t.sp.val = s.sp.val - 1 ∧ t.pc = s.stack[s.sp.val - 1] ∧ t.stack = s.stack ∧
    KeepsRegsBut [] s t ∧ KeepsMemory s t ∧ t.i = s.i ∧ KeepsTimers s t ∧ t.fb = s.fb ∧ KeepsControl s t) ∧
  (∀ s : State, s.sp.val = 0 → exec .ret s = .next { s with fault := Fault.code .stackUnderflow })

/-- `JP NNN` (R81): its encoding; `PC` becomes the zero-extended `NNN`, odd or not (R38; no parity check is the spec's
choice, D8, log 9), and nothing else changes. -/
def Obligations.JumpSetsThePc : Prop :=
  (∀ w : Word, w &&& 0xF000 = 0x1000 → decodeWord w = .instr (.jp (fieldNNN w))) ∧
  (∀ (nnn : Addr) (s : State), ∃ t, exec (.jp nnn) s = .next t ∧ MovesOnlyPc (nnn.setWidth 16) s t)

/-- `CALL NNN` (R82, R150): its encoding; with room, the advanced `PC` is stored at `STACK[SP]`, `SP` then grows by one,
`PC` becomes `NNN`, and nothing else changes; with `SP = 16` it raises `STACK_OVERFLOW`, code 1, taken as a next state (D6,
log 6), and nothing is pushed. -/
def Obligations.CallPushesTheAdvancedPc : Prop :=
  (∀ w : Word, w &&& 0xF000 = 0x2000 → decodeWord w = .instr (.call (fieldNNN w))) ∧
  (∀ (nnn : Addr) (s : State) (h : s.sp.val < 16), ∃ t, exec (.call nnn) s = .next t ∧
    t.stack[s.sp.val] = s.pc + 2 ∧ (∀ k : Fin 16, k.val ≠ s.sp.val → t.stack[k.val] = s.stack[k.val]) ∧
    t.sp.val = s.sp.val + 1 ∧ t.pc = nnn.setWidth 16 ∧
    KeepsRegsBut [] s t ∧ KeepsMemory s t ∧ t.i = s.i ∧ KeepsTimers s t ∧ t.fb = s.fb ∧ KeepsControl s t) ∧
  (∀ (nnn : Addr) (s : State), s.sp.val = 16 → exec (.call nnn) s = .next { s with fault := 1 })

/-- The immediate skips (R83, R84): their encodings; an extra 2 when the condition holds; nothing but `PC` changes. -/
def Obligations.ImmediateSkipsTestOneRegister : Prop :=
  (∀ w : Word, w &&& 0xF000 = 0x3000 → decodeWord w = .instr (.seImm (fieldX w) (fieldNN w))) ∧
  (∀ w : Word, w &&& 0xF000 = 0x4000 → decodeWord w = .instr (.sneImm (fieldX w) (fieldNN w))) ∧
  (∀ (x : Reg) (nn : Byte) (s : State),
    (∃ t, exec (.seImm x nn) s = .next t ∧
      MovesOnlyPc (if s.getV x = nn then s.pc + 2 + 2 else s.pc + 2) s t) ∧
    (∃ t, exec (.sneImm x nn) s = .next t ∧
      MovesOnlyPc (if s.getV x ≠ nn then s.pc + 2 + 2 else s.pc + 2) s t))

/-- The register skips (R85, R86): their encodings, the low nibble ignored (R59; the spec's choice, D5, log 3); an extra 2
when the condition holds; nothing but `PC` changes. -/
def Obligations.RegisterSkipsCompareTwoRegisters : Prop :=
  (∀ w : Word, w &&& 0xF000 = 0x5000 → decodeWord w = .instr (.seReg (fieldX w) (fieldY w))) ∧
  (∀ w : Word, w &&& 0xF000 = 0x9000 → decodeWord w = .instr (.sneReg (fieldX w) (fieldY w))) ∧
  (∀ (x y : Reg) (s : State),
    (∃ t, exec (.seReg x y) s = .next t ∧
      MovesOnlyPc (if s.getV x = s.getV y then s.pc + 2 + 2 else s.pc + 2) s t) ∧
    (∃ t, exec (.sneReg x y) s = .next t ∧
      MovesOnlyPc (if s.getV x ≠ s.getV y then s.pc + 2 + 2 else s.pc + 2) s t))

/-- `JP V0, NNN` (R87): its encoding; `PC` becomes `NNN + V[0]`, at most 4350, not reduced modulo 4096 (the spec's choice,
D8), and nothing else changes. -/
def Obligations.IndexedJumpAddsRegisterZero : Prop :=
  (∀ w : Word, w &&& 0xF000 = 0xB000 → decodeWord w = .instr (.jpV0 (fieldNNN w))) ∧
  (∀ (nnn : Addr) (s : State), ∃ t, exec (.jpV0 nnn) s = .next t ∧
    t.pc.toNat = nnn.toNat + (s.getV 0).toNat ∧ t.pc.toNat ≤ 4350 ∧ MovesOnlyPc t.pc s t)

/-- A call followed immediately by a return comes back to the instruction after the call with the stack pointer as before
(the source's property S8). -/
def Obligations.CallThenReturnComesBack : Prop :=
  ∀ (nnn : Addr) (s : State), s.sp.val < 16 →
    ∃ t u, exec (.call nnn) s = .next t ∧ exec .ret t = .next u ∧ u.pc = s.pc + 2 ∧ u.sp = s.sp

/-! ### Registers -/

/-- `LD Vx, NN`, `ADD Vx, NN`, `LD Vx, Vy` (R90, R91, R92): encodings and results; no flag, nothing else changes. -/
def Obligations.LoadsAndAddImmediateWriteTheirRegister : Prop :=
  (∀ w : Word, w &&& 0xF000 = 0x6000 → decodeWord w = .instr (.ldImm (fieldX w) (fieldNN w))) ∧
  (∀ w : Word, w &&& 0xF000 = 0x7000 → decodeWord w = .instr (.addImm (fieldX w) (fieldNN w))) ∧
  (∀ w : Word, w &&& 0xF00F = 0x8000 → decodeWord w = .instr (.ldReg (fieldX w) (fieldY w))) ∧
  (∀ (x y : Reg) (nn : Byte) (s : State),
    (∃ t, exec (.ldImm x nn) s = .next t ∧ WritesOnlyReg x nn s t) ∧
    (∃ t, exec (.addImm x nn) s = .next t ∧ (t.getV x).toNat = ((s.getV x).toNat + nn.toNat) % 256 ∧
      WritesOnlyReg x (t.getV x) s t) ∧
    (∃ t, exec (.ldReg x y) s = .next t ∧ WritesOnlyReg x (s.getV y) s t))

/-- `OR`, `AND`, `XOR` (R93, R94, R95): encodings and results, bit by bit; VF (the spec's choice, D19) and everything else
unchanged. -/
def Obligations.BitwiseOperationsWriteOnlyTheirRegister : Prop :=
  (∀ w : Word, w &&& 0xF00F = 0x8001 → decodeWord w = .instr (.orReg (fieldX w) (fieldY w))) ∧
  (∀ w : Word, w &&& 0xF00F = 0x8002 → decodeWord w = .instr (.andReg (fieldX w) (fieldY w))) ∧
  (∀ w : Word, w &&& 0xF00F = 0x8003 → decodeWord w = .instr (.xorReg (fieldX w) (fieldY w))) ∧
  (∀ (x y : Reg) (s : State),
    (∃ t, exec (.orReg x y) s = .next t ∧ WritesOnlyReg x (s.getV x ||| s.getV y) s t) ∧
    (∃ t, exec (.andReg x y) s = .next t ∧ WritesOnlyReg x (s.getV x &&& s.getV y) s t) ∧
    (∃ t, exec (.xorReg x y) s = .next t ∧ WritesOnlyReg x (s.getV x ^^^ s.getV y) s t))

/-- `ADD Vx, Vy` (R100): its encoding; VF is 1 exactly when the sum exceeds 255, the result is the sum modulo 256; with
X = 15 the result stands in VF; nothing else changes. Both operands are the values before VF is written, VF itself with
X or Y = 15 (R14; the spec's choice, D13, log 9). -/
def Obligations.AddSetsCarryThenStoresTheSum : Prop :=
  (∀ w : Word, w &&& 0xF00F = 0x8004 → decodeWord w = .instr (.addReg (fieldX w) (fieldY w))) ∧
  (∀ (x y : Reg) (s : State), ∃ t, exec (.addReg x y) s = .next t ∧
    (t.getV x).toNat = ((s.getV x).toNat + (s.getV y).toNat) % 256 ∧
    WritesFlagAndReg x (if (s.getV x).toNat + (s.getV y).toNat > 255 then 1 else 0) (t.getV x) s t)

/-- `SUB` and `SUBN` (R101, R102): encodings; VF is 1 exactly when there is no borrow, equality included; the result is the
difference modulo 256; with X = 15 the result stands in VF; nothing else changes. Both operands are the values before VF is
written, VF itself with X or Y = 15 (R14; the spec's choice, D13, log 9). -/
def Obligations.SubtractionsSetNoBorrowThenStoreTheDifference : Prop :=
  (∀ w : Word, w &&& 0xF00F = 0x8005 → decodeWord w = .instr (.sub (fieldX w) (fieldY w))) ∧
  (∀ w : Word, w &&& 0xF00F = 0x8007 → decodeWord w = .instr (.subn (fieldX w) (fieldY w))) ∧
  (∀ (x y : Reg) (s : State),
    (∃ t, exec (.sub x y) s = .next t ∧
      (t.getV x).toNat = ((s.getV x).toNat + 256 - (s.getV y).toNat) % 256 ∧
      WritesFlagAndReg x (if (s.getV x).toNat ≥ (s.getV y).toNat then 1 else 0) (t.getV x) s t) ∧
    (∃ t, exec (.subn x y) s = .next t ∧
      (t.getV x).toNat = ((s.getV y).toNat + 256 - (s.getV x).toNat) % 256 ∧
      WritesFlagAndReg x (if (s.getV y).toNat ≥ (s.getV x).toNat then 1 else 0) (t.getV x) s t))

/-- `SHR` and `SHL` (R105, R106), from `V[X]` or `V[Y]` as `SHIFT_SOURCE` says (R107; the spec's choice, D14): encodings; VF receives the bit
shifted out, the result is the source halved or doubled modulo 256; with X = 15 the result stands in VF; nothing else
changes. The source is read before VF is written, VF itself where it is the source (R14; the spec's choice, D13, log 9). -/
def Obligations.ShiftsStoreTheDroppedBitThenTheResult : Prop :=
  (∀ w : Word, w &&& 0xF00F = 0x8006 → decodeWord w = .instr (.shr (fieldX w) (fieldY w))) ∧
  (∀ w : Word, w &&& 0xF00F = 0x800E → decodeWord w = .instr (.shl (fieldX w) (fieldY w))) ∧
  (∀ (x y : Reg) (s : State) (src : Byte),
    src = (if s.cfg.shiftSource = .vx then s.getV x else s.getV y) →
    (∃ t, exec (.shr x y) s = .next t ∧ (t.getV x).toNat = src.toNat / 2 ∧
      WritesFlagAndReg x (if src.toNat % 2 = 1 then 1 else 0) (t.getV x) s t) ∧
    (∃ t, exec (.shl x y) s = .next t ∧ (t.getV x).toNat = src.toNat * 2 % 256 ∧
      WritesFlagAndReg x (if src.toNat ≥ 128 then 1 else 0) (t.getV x) s t))

/-! ### Index register and memory -/

/-- `LD I, NNN` and `LD F, Vx` (R110, R112): encodings; `I` becomes `NNN`, or the address of the glyph for the low nibble of
`V[X]`, and nothing else changes. -/
def Obligations.IndexLoadsSetTheIndexRegister : Prop :=
  (∀ w : Word, w &&& 0xF000 = 0xA000 → decodeWord w = .instr (.ldI (fieldNNN w))) ∧
  (∀ w : Word, w &&& 0xF0FF = 0xF029 → decodeWord w = .instr (.ldFVx (fieldX w))) ∧
  (∀ (nnn : Addr) (s : State), ∃ t, exec (.ldI nnn) s = .next t ∧ WritesOnlyIndex (nnn.setWidth 16) s t) ∧
  (∀ (x : Reg) (s : State), s.cfg.wf = true → ∃ t, exec (.ldFVx x) s = .next t ∧
    t.i.toNat = s.cfg.fontBase.toNat + 5 * ((s.getV x).toNat % 16) ∧ WritesOnlyIndex t.i s t)

/-- `ADD I, Vx` (R111): its encoding; `I` becomes the sum modulo 65536 (the wrap is the spec's choice, D9); VF and everything
else unchanged, no fault. -/
def Obligations.AddToIndexWrapsWithoutFlag : Prop :=
  (∀ w : Word, w &&& 0xF0FF = 0xF01E → decodeWord w = .instr (.addIVx (fieldX w))) ∧
  (∀ (x : Reg) (s : State), ∃ t, exec (.addIVx x) s = .next t ∧
    t.i.toNat = (s.i.toNat + (s.getV x).toNat) % 65536 ∧ WritesOnlyIndex t.i s t)

/-- `LD B, Vx` (R113): its encoding; when `I + 2 <= 4095` the hundreds, tens and ones of `V[X]` are stored at `I`, `I + 1`,
`I + 2`, every other byte and everything else is unchanged, and the sum of the digits at their weights is `V[X]`;
otherwise it raises `DATA_RANGE`, taken as a next state (D6, log 6), and nothing is written. -/
def Obligations.DecimalStoreWritesThreeDigits : Prop :=
  (∀ w : Word, w &&& 0xF0FF = 0xF033 → decodeWord w = .instr (.ldBVx (fieldX w))) ∧
  (∀ (x : Reg) (s : State), Memory.wf s.cfg s.mem → s.dataAddress 2 ≤ 4095 → ∃ t, exec (.ldBVx x) s = .next t ∧
    (t.readByte (s.dataAddress 0)).toNat = (s.getV x).toNat / 100 ∧
    (t.readByte (s.dataAddress 1)).toNat = (s.getV x).toNat / 10 % 10 ∧
    (t.readByte (s.dataAddress 2)).toNat = (s.getV x).toNat % 10 ∧
    100 * (t.readByte (s.dataAddress 0)).toNat + 10 * (t.readByte (s.dataAddress 1)).toNat +
      (t.readByte (s.dataAddress 2)).toNat = (s.getV x).toNat ∧
    KeepsMemoryOutside (s.dataAddress 0) 3 s t ∧ t.pc = s.pc + 2 ∧ KeepsRegsBut [] s t ∧ KeepsRest s t) ∧
  (∀ (x : Reg) (s : State), s.dataAddress 2 > 4095 →
    exec (.ldBVx x) s = .next { s with fault := Fault.code .dataRange })

/-- `LD [I], Vx` (R114): its encoding; when `I + X <= 4095` register `i` is stored at `I + i` for every `i` up to X, every
other byte and everything else, `I` included (the spec's choice, D18), is unchanged; otherwise it raises `DATA_RANGE`
and nothing is written. -/
def Obligations.BulkStoreWritesRegistersUpToX : Prop :=
  (∀ w : Word, w &&& 0xF0FF = 0xF055 → decodeWord w = .instr (.ldMemVx (fieldX w))) ∧
  (∀ (x : Reg) (s : State), Memory.wf s.cfg s.mem → s.dataAddress x.val ≤ 4095 →
    ∃ t, exec (.ldMemVx x) s = .next t ∧
      (∀ r : Reg, r ≤ x → t.readByte (s.dataAddress r.val) = s.getV r) ∧
      KeepsMemoryOutside (s.dataAddress 0) (x.val + 1) s t ∧ t.pc = s.pc + 2 ∧ KeepsRegsBut [] s t ∧ KeepsRest s t) ∧
  (∀ (x : Reg) (s : State), s.dataAddress x.val > 4095 →
    exec (.ldMemVx x) s = .next { s with fault := Fault.code .dataRange })

/-- `LD Vx, [I]` (R115): its encoding; when `I + X <= 4095` register `i` receives the byte at `I + i` for every `i` up to X
(VF too, with X = 15), every other register, all of memory and everything else, `I` included (the spec's choice, D18), is
unchanged; otherwise it raises `DATA_RANGE` and no register is written. -/
def Obligations.BulkLoadReadsRegistersUpToX : Prop :=
  (∀ w : Word, w &&& 0xF0FF = 0xF065 → decodeWord w = .instr (.ldVxMem (fieldX w))) ∧
  (∀ (x : Reg) (s : State), s.dataAddress x.val ≤ 4095 →
    ∃ t, exec (.ldVxMem x) s = .next t ∧
      (∀ r : Reg, r ≤ x → t.getV r = s.readByte (s.dataAddress r.val)) ∧
      (∀ r : Reg, x < r → t.getV r = s.getV r) ∧ t.pc = s.pc + 2 ∧ KeepsMemory s t ∧ KeepsRest s t) ∧
  (∀ (x : Reg) (s : State), s.dataAddress x.val > 4095 →
    exec (.ldVxMem x) s = .next { s with fault := Fault.code .dataRange })

/-- A register dump followed by a register load through the same region and count gives back the register values, whatever
the registers held in between (the source's property S5; `I` unchanged by both is the spec's choice, D18). -/
def Obligations.RegisterDumpThenLoadRoundTrips : Prop :=
  ∀ (x : Reg) (s : State) (other : Vector Byte 16), Memory.wf s.cfg s.mem → s.i.toNat + x.val ≤ 4095 →
    ∃ t u, exec (.ldMemVx x) s = .next t ∧ exec (.ldVxMem x) { t with v := other } = .next u ∧
      ∀ r : Reg, r ≤ x → u.getV r = s.getV r

/-- A stored word is seen by the very next fetch of its address (20_memory.md R47): after `LD [I], Vx` a fetch at `I + k`
reads `V[k]` and `V[k+1]`. -/
def Obligations.StoredBytesAreFetchedAtOnce : Prop :=
  ∀ (x k : Reg) (s : State), Memory.wf s.cfg s.mem → s.dataAddress x.val ≤ 4095 → k < x →
    ∃ t, exec (.ldMemVx x) s = .next t ∧
      (t.setPc (BitVec.ofNat 16 (s.dataAddress k.val))).fetch =
        some (wordOfBytes (s.getV k) (s.getV (k + 1)))

/-- The canonical form is one for one: two canonical memories that read alike at every address are the same list. -/
def Obligations.EqualMemoriesAreEqualData : Prop :=
  ∀ (c : Config) (m n : Memory), Memory.wf c m → Memory.wf c n → (∀ a, Memory.read c m a = Memory.read c n a) → m = n

/-! ### Random and input -/

/-- `RND Vx, NN` (R120): its encoding; `V[X]` becomes the step's random byte masked with `NN`; nothing else changes; where
the host has supplied a byte, that is the step's random byte (how bytes are supplied is the model's choice, log 4). -/
def Obligations.RandomIsMaskedWithTheImmediate : Prop :=
  (∀ w : Word, w &&& 0xF000 = 0xC000 → decodeWord w = .instr (.rnd (fieldX w) (fieldNN w))) ∧
  (∀ (x : Reg) (nn : Byte) (s : State), ∃ t, exec (.rnd x nn) s = .next t ∧ WritesOnlyReg x (s.rndByte &&& nn) s t) ∧
  (∀ (s : State) (r : Byte) (rest : List Byte), s.rndIn = r :: rest → s.rndByte = r)

/-- `Step(rnd)` gives the byte of its argument to the `RND` it executes, for any byte, and to no later step (R31, R65; the
spec's choice, D23). -/
def Obligations.HostByteIsTheOneRndReceives : Prop :=
  ∀ (s : State) (r : Byte) (x : Reg) (nn : Byte), s.fault = 0 → s.pc.toNat ≤ 4094 →
    decodeWord (wordOfBytes (s.readByte s.pc.toNat) (s.readByte (s.pc.toNat + 1))) = .instr (.rnd x nn) →
    ∃ t, stepWith r s = .next t ∧ t.getV x = r &&& nn ∧ t.pc = s.pc + 2 ∧ t.rndIn = s.rndIn

/-- `SKP` and `SKNP` (R125, R126): encodings; with `V[X] <= 15` an extra 2 when key `V[X]` is down, or up, and nothing but `PC`
changes; with `V[X] > 15` they raise `KEY_RANGE` (the spec's choice, D11) and nothing else changes. -/
def Obligations.KeySkipsTestTheNumberedKey : Prop :=
  (∀ w : Word, w &&& 0xF0FF = 0xE09E → decodeWord w = .instr (.skp (fieldX w))) ∧
  (∀ w : Word, w &&& 0xF0FF = 0xE0A1 → decodeWord w = .instr (.sknp (fieldX w))) ∧
  (∀ (x : Reg) (s : State), (s.getV x).toNat ≤ 15 →
    (∃ t, exec (.skp x) s = .next t ∧
      MovesOnlyPc (if s.key.getLsbD (s.getV x).toNat = true then s.pc + 2 + 2 else s.pc + 2) s t) ∧
    (∃ t, exec (.sknp x) s = .next t ∧
      MovesOnlyPc (if s.key.getLsbD (s.getV x).toNat = false then s.pc + 2 + 2 else s.pc + 2) s t)) ∧
  (∀ (x : Reg) (s : State), (s.getV x).toNat > 15 →
    exec (.skp x) s = .next { s with fault := Fault.code .keyRange } ∧
    exec (.sknp x) s = .next { s with fault := Fault.code .keyRange })

/-- `LD Vx, K` (R127): its encoding; with a key down, the least such key goes to `V[X]` (the spec's choice, D12) and nothing
else changes; with no key down, `PC` is back at the instruction and nothing has changed. -/
def Obligations.KeyWaitStoresTheLeastKeyOrRepeats : Prop :=
  (∀ w : Word, w &&& 0xF0FF = 0xF00A → decodeWord w = .instr (.ldVxK (fieldX w))) ∧
  (∀ (x : Reg) (s : State) (j : Fin 16), s.key.getLsbD j.val = true → (∀ k : Fin 16, k < j → s.key.getLsbD k.val = false) →
    ∃ t, exec (.ldVxK x) s = .next t ∧ WritesOnlyReg x (BitVec.ofNat 8 j.val) s t) ∧
  (∀ (x : Reg) (s : State), (∀ j : Fin 16, s.key.getLsbD j.val = false) → exec (.ldVxK x) s = .next s)

/-! ### Display -/

/-- `CLS` (R130): its encoding; every pixel is off; VF (the spec's choice, D19) and everything else unchanged. -/
def Obligations.ClearTurnsEveryPixelOff : Prop :=
  (∀ w : Word, w &&& 0xF0FF = 0x00E0 → decodeWord w = .instr .cls) ∧
  (∀ s : State, ∃ t, exec .cls s = .next t ∧ (∀ y x, Framebuffer.pixel t.fb y x = false) ∧ t.pc = s.pc + 2 ∧
    KeepsRegsBut [] s t ∧ KeepsMemory s t ∧ t.i = s.i ∧ KeepsStack s t ∧ KeepsTimers s t ∧ KeepsControl s t)

/-- `Coord` (R133; the spec's choice, D15): under `WRAP` both coordinates are reduced, under `CLIP` a position past the edge
is none. -/
def Obligations.CoordinatesWrapOrClip : Prop :=
  (∀ x y : Nat, ∃ px py, coord .wrap x y = some (px, py) ∧ px.val = x % 64 ∧ py.val = y % 32) ∧
  (∀ x y : Nat, x ≤ 63 → y ≤ 31 → ∃ px py, coord .clip x y = some (px, py) ∧ px.val = x ∧ py.val = y) ∧
  (∀ x y : Nat, x > 63 ∨ y > 31 → coord .clip x y = none)

/-- `DRW` (R132; the spec's choices, D13, D15 to D17): its encoding; when its bytes are all in memory, or N = 0, a pixel is
toggled exactly when a set bit of the sprite falls on it, VF is 1 exactly when a toggled pixel was on, and everything
else, `I` included, is unchanged. -/
def Obligations.DrawTogglesExactlyTheCoveredPixels : Prop :=
  (∀ w : Word, w &&& 0xF000 = 0xD000 → decodeWord w = .instr (.drw (fieldX w) (fieldY w) (fieldN w))) ∧
  (∀ (x y : Reg) (n : Fin 16) (s : State), (n.val = 0 ∨ s.dataAddress (n.val - 1) ≤ 4095) →
    ∃ t, exec (.drw x y n) s = .next t ∧
      (∀ py px, SpriteCovers s x y n.val py px → Framebuffer.pixel t.fb py px = !Framebuffer.pixel s.fb py px) ∧
      (∀ py px, ¬ SpriteCovers s x y n.val py px → Framebuffer.pixel t.fb py px = Framebuffer.pixel s.fb py px) ∧
      ((∃ py px, SpriteCovers s x y n.val py px ∧ Framebuffer.pixel s.fb py px = true) → t.getV 15 = 1) ∧
      ((¬ ∃ py px, SpriteCovers s x y n.val py px ∧ Framebuffer.pixel s.fb py px = true) → t.getV 15 = 0) ∧
      t.pc = s.pc + 2 ∧ KeepsRegsBut [15] s t ∧ KeepsMemory s t ∧ t.i = s.i ∧ KeepsStack s t ∧ KeepsTimers s t ∧
      KeepsControl s t)

/-- `DRW` past memory (R132, R153; the spec's choice, D10): with N > 0 and `I + N - 1 > 4095` it raises `DATA_RANGE`, and VF and
the framebuffer are as before. -/
def Obligations.DrawPastMemoryRaisesDataRange : Prop :=
  ∀ (x y : Reg) (n : Fin 16) (s : State), n.val > 0 → s.dataAddress (n.val - 1) > 4095 →
    exec (.drw x y n) s = .next { s with fault := 4 }

/-- The same `DRW` twice (R132). Whatever the registers, a pixel is as before exactly when both draws cover it or neither
does; with X and Y not 15 the second draw is at the same place, so the framebuffer is as before (R132 e), and the second
draw reports a collision exactly when some covered pixel was off before the first. With X or Y = 15 the second draw is
where the first one's VF puts it (D13). The collision clause is the model's reading: the pseudocode, not the words of
remark (e), which would report one for any drawn bit (log 14). -/
def Obligations.DrawingTwiceRestoresTheFramebuffer : Prop :=
  ∀ (x y : Reg) (n : Fin 16) (s : State), (n.val = 0 ∨ s.dataAddress (n.val - 1) ≤ 4095) →
    ∃ t u, exec (.drw x y n) s = .next t ∧ exec (.drw x y n) t = .next u ∧
      (∀ py px, Framebuffer.pixel u.fb py px = Framebuffer.pixel s.fb py px ↔
        (SpriteCovers s x y n.val py px ↔ SpriteCovers t x y n.val py px)) ∧
      (x ≠ 15 → y ≠ 15 → u.fb = s.fb ∧
        (u.getV 15 = 1 ↔ ∃ py px, SpriteCovers s x y n.val py px ∧ Framebuffer.pixel s.fb py px = false))

/-! ### Timers -/

/-- `LD Vx, DT` and `LD ST, Vx` (R140, R142): encodings; the delay timer is copied to `V[X]`, `V[X]` to the sound timer, and
nothing else changes in the handler. -/
def Obligations.DelayReadAndSoundSetMoveOneTimer : Prop :=
  (∀ w : Word, w &&& 0xF0FF = 0xF007 → decodeWord w = .instr (.ldVxDt (fieldX w))) ∧
  (∀ w : Word, w &&& 0xF0FF = 0xF018 → decodeWord w = .instr (.ldStVx (fieldX w))) ∧
  (∀ (x : Reg) (s : State),
    (∃ t, exec (.ldVxDt x) s = .next t ∧ WritesOnlyReg x s.dt s t) ∧
    (∃ t, exec (.ldStVx x) s = .next t ∧ t.st = s.getV x ∧ t.dt = s.dt ∧ t.pc = s.pc + 2 ∧
      KeepsRegsBut [] s t ∧ KeepsMemory s t ∧ t.i = s.i ∧ KeepsStack s t ∧ t.fb = s.fb ∧ KeepsControl s t))

/-- `LD DT, Vx` (R141; the spec's derivation): its encoding; `DT` becomes `V[X]` in the handler and nothing else changes; a
whole step under `PER_STEP` leaves it counted down once, under `EXTERNAL` as it was set. -/
def Obligations.DelaySetIsTickedInItsOwnStep : Prop :=
  (∀ w : Word, w &&& 0xF0FF = 0xF015 → decodeWord w = .instr (.ldDtVx (fieldX w))) ∧
  (∀ (x : Reg) (s : State), ∃ t, exec (.ldDtVx x) s = .next t ∧ t.dt = s.getV x ∧ t.st = s.st ∧ t.pc = s.pc + 2 ∧
    KeepsRegsBut [] s t ∧ KeepsMemory s t ∧ t.i = s.i ∧ KeepsStack s t ∧ t.fb = s.fb ∧ KeepsControl s t) ∧
  (∀ (x : Reg) (s : State), s.fault = 0 → s.pc.toNat ≤ 4094 →
    decodeWord (wordOfBytes (s.readByte s.pc.toNat) (s.readByte (s.pc.toNat + 1))) = .instr (.ldDtVx x) →
    ∃ t, step s = .next t ∧
      (s.cfg.timerTick = .perStep → t.dt.toNat = (s.getV x).toNat - 1) ∧
      (s.cfg.timerTick = .external → t.dt = s.getV x))

/-- The tick (R76, R77; the spec's choice, D21): a step that completes counts each timer its instruction did not set down by
one, stopping at 0, under `PER_STEP`, and leaves it under `EXTERNAL`. -/
def Obligations.EveryCompletedStepTicksBothTimers : Prop :=
  ∀ (s t : State) (d : Decoded), s.fault = 0 → step s = .next t → t.fault = 0 →
    d = decodeWord (wordOfBytes (s.readByte s.pc.toNat) (s.readByte (s.pc.toNat + 1))) →
    ((∀ x, d ≠ .instr (.ldDtVx x)) → t.dt = tickedTimer s.cfg s.dt) ∧
    ((∀ x, d ≠ .instr (.ldStVx x)) → t.st = tickedTimer s.cfg s.st)

/-! ### Reset and the host's operations -/

/-- The state after `Initialize` (R27, R180; the zeros of `I`, `SP`, the timers, `IR` and `FAULT` are the spec's choice, D20), for
every well-formed configuration; with the default one it is `State.reset`. That the host operation `Initialize` leaves it is
`InitializeIgnoresTheStateBefore`. -/
def Obligations.ResetStateIsTheTableOfInitialValues : Prop :=
  State.reset = State.initial Config.default ∧
  ∀ (c : Config) (s : State), c.wf = true → s = State.initial c →
    (∀ r, s.getV r = 0) ∧ s.pc = c.programOrigin ∧ s.i = 0 ∧ (∀ k : Fin 16, s.stack[k.val] = 0) ∧ s.sp = 0 ∧
    s.dt = 0 ∧ s.st = 0 ∧ s.ir = 0 ∧ s.fault = 0 ∧ (∀ j : Fin 16, s.key.getLsbD j.val = false) ∧
    (∀ y x, Framebuffer.pixel s.fb y x = false) ∧
    (∀ j : Fin 80, s.readByte (c.fontBase.toNat + j.val) = c.fontTable[j.val]) ∧
    (∀ a, (a < c.fontBase.toNat ∨ c.fontBase.toNat + 80 ≤ a) → s.readByte a = 0)

/-- The host operation `Initialize` (R180, R164): from any state it leaves `State.initial` of the machine's configuration, so
its result does not depend on the rest of the state before, it is idempotent, and it leaves the halted state. -/
def Obligations.InitializeIgnoresTheStateBefore : Prop :=
  ∀ s t : State, s.hostReset = State.initial s.cfg ∧ hostOp .reset s = .next (State.initial s.cfg) ∧
    (s.cfg = t.cfg → s.hostReset = t.hostReset) ∧ s.hostReset.hostReset = s.hostReset ∧ s.hostReset.fault = 0

/-- `Load` (R183): an image longer than the memory past the origin is refused with nothing changed; any other is copied from
the origin, byte for byte, and nothing else changes, not `PC`, not `FAULT`, not a byte past the image. -/
def Obligations.LoadCopiesTheWholeImageOrNothing : Prop :=
  ∀ (s : State) (image : List Byte), s.cfg.wf = true → Memory.wf s.cfg s.mem →
    (image.length > 4096 - s.cfg.programOrigin.toNat → s.load image = (.sizeExceeded, s)) ∧
    (image.length ≤ 4096 - s.cfg.programOrigin.toNat → ∃ t, s.load image = (.ok, t) ∧
      (∀ (j : Nat) (h : j < image.length), t.readByte (s.cfg.programOrigin.toNat + j) = image[j]) ∧
      KeepsMemoryOutside s.cfg.programOrigin.toNat image.length s t ∧
      t.pc = s.pc ∧ KeepsRegsBut [] s t ∧ KeepsRest s t)

/-- `SetKeys`, `ReadOutputs` and `TickTimers` (R30, R32, R77; the spec's choices, D21, D24, D26): what each writes or returns, and that
it does no more. -/
def Obligations.KeyAndTimerOperationsDoOnlyTheirOwn : Prop :=
  ∀ (s : State) (k : BitVec 16),
    hostOp (.setKeys k) s = .next { s with key := k } ∧
    hostOp .readOutputs s = .next s ∧ s.readOutputs = ⟨s.fb, s.dt, s.st, s.fault⟩ ∧
    (s.cfg.timerTick = .external → s.fault ≠ 0 → hostOp .tickTimers s = .next s) ∧
    (s.cfg.timerTick = .external → s.fault = 0 →
      hostOp .tickTimers s = .next { s with dt := if s.dt = 0 then 0 else s.dt - 1, st := if s.st = 0 then 0 else s.st - 1 })

/-- A word placed where the next step fetches is the word it fetches, from any state with a canonical memory, and the table
decoder reads from it what the machine's decoder reads (log 12). -/
def Obligations.PlacedWordIsFetchedNext : Prop :=
  ∀ (s : State) (w : Word), Memory.wf s.cfg s.mem →
    (s.withFetchWord 16 w.toNat).fetch = some w ∧ (s.withFetchWord 16 w.toNat).fault = 0 ∧
    (∀ i, decodeTableWord 16 w.toNat = some i ↔ decodeWord w = .instr i)
end

