-- ==== Sys2Proof/Laws/State.lean ====
section
/-!
SUPPORT. One lemma per field per update of the state, and the same for the two readers `getV` and `readByte`, so that no
later proof unfolds a record update.
-/

namespace Sys2Proof.Machine

variable (s : State)

/-! ### `setV` -/

@[simp] theorem State.setV_v (x : Reg) (b : Byte) : (s.setV x b).v = s.v.set x.val b := rfl
@[simp] theorem State.setV_pc (x : Reg) (b : Byte) : (s.setV x b).pc = s.pc := rfl
@[simp] theorem State.setV_i (x : Reg) (b : Byte) : (s.setV x b).i = s.i := rfl
@[simp] theorem State.setV_stack (x : Reg) (b : Byte) : (s.setV x b).stack = s.stack := rfl
@[simp] theorem State.setV_sp (x : Reg) (b : Byte) : (s.setV x b).sp = s.sp := rfl
@[simp] theorem State.setV_dt (x : Reg) (b : Byte) : (s.setV x b).dt = s.dt := rfl
@[simp] theorem State.setV_st (x : Reg) (b : Byte) : (s.setV x b).st = s.st := rfl
@[simp] theorem State.setV_ir (x : Reg) (b : Byte) : (s.setV x b).ir = s.ir := rfl
@[simp] theorem State.setV_fault (x : Reg) (b : Byte) : (s.setV x b).fault = s.fault := rfl
@[simp] theorem State.setV_key (x : Reg) (b : Byte) : (s.setV x b).key = s.key := rfl
@[simp] theorem State.setV_fb (x : Reg) (b : Byte) : (s.setV x b).fb = s.fb := rfl
@[simp] theorem State.setV_mem (x : Reg) (b : Byte) : (s.setV x b).mem = s.mem := rfl
@[simp] theorem State.setV_cfg (x : Reg) (b : Byte) : (s.setV x b).cfg = s.cfg := rfl
@[simp] theorem State.setV_rndIn (x : Reg) (b : Byte) : (s.setV x b).rndIn = s.rndIn := rfl
@[simp] theorem State.setV_draws (x : Reg) (b : Byte) : (s.setV x b).draws = s.draws := rfl
@[simp] theorem State.setV_readByte (x : Reg) (b : Byte) (k : Nat) : (s.setV x b).readByte k = s.readByte k := rfl

/-! ### `setPc` -/

@[simp] theorem State.setPc_v (a : Word) : (s.setPc a).v = s.v := rfl
@[simp] theorem State.setPc_pc (a : Word) : (s.setPc a).pc = a := rfl
@[simp] theorem State.setPc_i (a : Word) : (s.setPc a).i = s.i := rfl
@[simp] theorem State.setPc_stack (a : Word) : (s.setPc a).stack = s.stack := rfl
@[simp] theorem State.setPc_sp (a : Word) : (s.setPc a).sp = s.sp := rfl
@[simp] theorem State.setPc_dt (a : Word) : (s.setPc a).dt = s.dt := rfl
@[simp] theorem State.setPc_st (a : Word) : (s.setPc a).st = s.st := rfl
@[simp] theorem State.setPc_ir (a : Word) : (s.setPc a).ir = s.ir := rfl
@[simp] theorem State.setPc_fault (a : Word) : (s.setPc a).fault = s.fault := rfl
@[simp] theorem State.setPc_key (a : Word) : (s.setPc a).key = s.key := rfl
@[simp] theorem State.setPc_fb (a : Word) : (s.setPc a).fb = s.fb := rfl
@[simp] theorem State.setPc_mem (a : Word) : (s.setPc a).mem = s.mem := rfl
@[simp] theorem State.setPc_cfg (a : Word) : (s.setPc a).cfg = s.cfg := rfl
@[simp] theorem State.setPc_rndIn (a : Word) : (s.setPc a).rndIn = s.rndIn := rfl
@[simp] theorem State.setPc_draws (a : Word) : (s.setPc a).draws = s.draws := rfl
@[simp] theorem State.setPc_getV (a : Word) (r : Reg) : (s.setPc a).getV r = s.getV r := rfl
@[simp] theorem State.setPc_readByte (a : Word) (k : Nat) : (s.setPc a).readByte k = s.readByte k := rfl

/-! ### `advancePc` -/

@[simp] theorem State.advancePc_v : s.advancePc.v = s.v := rfl
@[simp] theorem State.advancePc_pc : s.advancePc.pc = s.pc + 2 := rfl
@[simp] theorem State.advancePc_i : s.advancePc.i = s.i := rfl
@[simp] theorem State.advancePc_stack : s.advancePc.stack = s.stack := rfl
@[simp] theorem State.advancePc_sp : s.advancePc.sp = s.sp := rfl
@[simp] theorem State.advancePc_dt : s.advancePc.dt = s.dt := rfl
@[simp] theorem State.advancePc_st : s.advancePc.st = s.st := rfl
@[simp] theorem State.advancePc_ir : s.advancePc.ir = s.ir := rfl
@[simp] theorem State.advancePc_fault : s.advancePc.fault = s.fault := rfl
@[simp] theorem State.advancePc_key : s.advancePc.key = s.key := rfl
@[simp] theorem State.advancePc_fb : s.advancePc.fb = s.fb := rfl
@[simp] theorem State.advancePc_mem : s.advancePc.mem = s.mem := rfl
@[simp] theorem State.advancePc_cfg : s.advancePc.cfg = s.cfg := rfl
@[simp] theorem State.advancePc_rndIn : s.advancePc.rndIn = s.rndIn := rfl
@[simp] theorem State.advancePc_draws : s.advancePc.draws = s.draws := rfl
@[simp] theorem State.advancePc_getV (r : Reg) : s.advancePc.getV r = s.getV r := rfl
@[simp] theorem State.advancePc_readByte (k : Nat) : s.advancePc.readByte k = s.readByte k := rfl

/-! ### `rewindPc` -/

@[simp] theorem State.rewindPc_v : s.rewindPc.v = s.v := rfl
@[simp] theorem State.rewindPc_pc : s.rewindPc.pc = s.pc - 2 := rfl
@[simp] theorem State.rewindPc_i : s.rewindPc.i = s.i := rfl
@[simp] theorem State.rewindPc_stack : s.rewindPc.stack = s.stack := rfl
@[simp] theorem State.rewindPc_sp : s.rewindPc.sp = s.sp := rfl
@[simp] theorem State.rewindPc_dt : s.rewindPc.dt = s.dt := rfl
@[simp] theorem State.rewindPc_st : s.rewindPc.st = s.st := rfl
@[simp] theorem State.rewindPc_ir : s.rewindPc.ir = s.ir := rfl
@[simp] theorem State.rewindPc_fault : s.rewindPc.fault = s.fault := rfl
@[simp] theorem State.rewindPc_key : s.rewindPc.key = s.key := rfl
@[simp] theorem State.rewindPc_fb : s.rewindPc.fb = s.fb := rfl
@[simp] theorem State.rewindPc_mem : s.rewindPc.mem = s.mem := rfl
@[simp] theorem State.rewindPc_cfg : s.rewindPc.cfg = s.cfg := rfl
@[simp] theorem State.rewindPc_rndIn : s.rewindPc.rndIn = s.rndIn := rfl
@[simp] theorem State.rewindPc_draws : s.rewindPc.draws = s.draws := rfl
@[simp] theorem State.rewindPc_getV (r : Reg) : s.rewindPc.getV r = s.getV r := rfl
@[simp] theorem State.rewindPc_readByte (k : Nat) : s.rewindPc.readByte k = s.readByte k := rfl

/-! ### `setI` -/

@[simp] theorem State.setI_v (a : Word) : (s.setI a).v = s.v := rfl
@[simp] theorem State.setI_pc (a : Word) : (s.setI a).pc = s.pc := rfl
@[simp] theorem State.setI_i (a : Word) : (s.setI a).i = a := rfl
@[simp] theorem State.setI_stack (a : Word) : (s.setI a).stack = s.stack := rfl
@[simp] theorem State.setI_sp (a : Word) : (s.setI a).sp = s.sp := rfl
@[simp] theorem State.setI_dt (a : Word) : (s.setI a).dt = s.dt := rfl
@[simp] theorem State.setI_st (a : Word) : (s.setI a).st = s.st := rfl
@[simp] theorem State.setI_ir (a : Word) : (s.setI a).ir = s.ir := rfl
@[simp] theorem State.setI_fault (a : Word) : (s.setI a).fault = s.fault := rfl
@[simp] theorem State.setI_key (a : Word) : (s.setI a).key = s.key := rfl
@[simp] theorem State.setI_fb (a : Word) : (s.setI a).fb = s.fb := rfl
@[simp] theorem State.setI_mem (a : Word) : (s.setI a).mem = s.mem := rfl
@[simp] theorem State.setI_cfg (a : Word) : (s.setI a).cfg = s.cfg := rfl
@[simp] theorem State.setI_rndIn (a : Word) : (s.setI a).rndIn = s.rndIn := rfl
@[simp] theorem State.setI_draws (a : Word) : (s.setI a).draws = s.draws := rfl
@[simp] theorem State.setI_getV (a : Word) (r : Reg) : (s.setI a).getV r = s.getV r := rfl
@[simp] theorem State.setI_readByte (a : Word) (k : Nat) : (s.setI a).readByte k = s.readByte k := rfl

/-! ### `setDt` -/

@[simp] theorem State.setDt_v (b : Byte) : (s.setDt b).v = s.v := rfl
@[simp] theorem State.setDt_pc (b : Byte) : (s.setDt b).pc = s.pc := rfl
@[simp] theorem State.setDt_i (b : Byte) : (s.setDt b).i = s.i := rfl
@[simp] theorem State.setDt_stack (b : Byte) : (s.setDt b).stack = s.stack := rfl
@[simp] theorem State.setDt_sp (b : Byte) : (s.setDt b).sp = s.sp := rfl
@[simp] theorem State.setDt_dt (b : Byte) : (s.setDt b).dt = b := rfl
@[simp] theorem State.setDt_st (b : Byte) : (s.setDt b).st = s.st := rfl
@[simp] theorem State.setDt_ir (b : Byte) : (s.setDt b).ir = s.ir := rfl
@[simp] theorem State.setDt_fault (b : Byte) : (s.setDt b).fault = s.fault := rfl
@[simp] theorem State.setDt_key (b : Byte) : (s.setDt b).key = s.key := rfl
@[simp] theorem State.setDt_fb (b : Byte) : (s.setDt b).fb = s.fb := rfl
@[simp] theorem State.setDt_mem (b : Byte) : (s.setDt b).mem = s.mem := rfl
@[simp] theorem State.setDt_cfg (b : Byte) : (s.setDt b).cfg = s.cfg := rfl
@[simp] theorem State.setDt_rndIn (b : Byte) : (s.setDt b).rndIn = s.rndIn := rfl
@[simp] theorem State.setDt_draws (b : Byte) : (s.setDt b).draws = s.draws := rfl
@[simp] theorem State.setDt_getV (b : Byte) (r : Reg) : (s.setDt b).getV r = s.getV r := rfl
@[simp] theorem State.setDt_readByte (b : Byte) (k : Nat) : (s.setDt b).readByte k = s.readByte k := rfl

/-! ### `setSt` -/

@[simp] theorem State.setSt_v (b : Byte) : (s.setSt b).v = s.v := rfl
@[simp] theorem State.setSt_pc (b : Byte) : (s.setSt b).pc = s.pc := rfl
@[simp] theorem State.setSt_i (b : Byte) : (s.setSt b).i = s.i := rfl
@[simp] theorem State.setSt_stack (b : Byte) : (s.setSt b).stack = s.stack := rfl
@[simp] theorem State.setSt_sp (b : Byte) : (s.setSt b).sp = s.sp := rfl
@[simp] theorem State.setSt_dt (b : Byte) : (s.setSt b).dt = s.dt := rfl
@[simp] theorem State.setSt_st (b : Byte) : (s.setSt b).st = b := rfl
@[simp] theorem State.setSt_ir (b : Byte) : (s.setSt b).ir = s.ir := rfl
@[simp] theorem State.setSt_fault (b : Byte) : (s.setSt b).fault = s.fault := rfl
@[simp] theorem State.setSt_key (b : Byte) : (s.setSt b).key = s.key := rfl
@[simp] theorem State.setSt_fb (b : Byte) : (s.setSt b).fb = s.fb := rfl
@[simp] theorem State.setSt_mem (b : Byte) : (s.setSt b).mem = s.mem := rfl
@[simp] theorem State.setSt_cfg (b : Byte) : (s.setSt b).cfg = s.cfg := rfl
@[simp] theorem State.setSt_rndIn (b : Byte) : (s.setSt b).rndIn = s.rndIn := rfl
@[simp] theorem State.setSt_draws (b : Byte) : (s.setSt b).draws = s.draws := rfl
@[simp] theorem State.setSt_getV (b : Byte) (r : Reg) : (s.setSt b).getV r = s.getV r := rfl
@[simp] theorem State.setSt_readByte (b : Byte) (k : Nat) : (s.setSt b).readByte k = s.readByte k := rfl

/-! ### `setFb` -/

@[simp] theorem State.setFb_v (f : Framebuffer) : (s.setFb f).v = s.v := rfl
@[simp] theorem State.setFb_pc (f : Framebuffer) : (s.setFb f).pc = s.pc := rfl
@[simp] theorem State.setFb_i (f : Framebuffer) : (s.setFb f).i = s.i := rfl
@[simp] theorem State.setFb_stack (f : Framebuffer) : (s.setFb f).stack = s.stack := rfl
@[simp] theorem State.setFb_sp (f : Framebuffer) : (s.setFb f).sp = s.sp := rfl
@[simp] theorem State.setFb_dt (f : Framebuffer) : (s.setFb f).dt = s.dt := rfl
@[simp] theorem State.setFb_st (f : Framebuffer) : (s.setFb f).st = s.st := rfl
@[simp] theorem State.setFb_ir (f : Framebuffer) : (s.setFb f).ir = s.ir := rfl
@[simp] theorem State.setFb_fault (f : Framebuffer) : (s.setFb f).fault = s.fault := rfl
@[simp] theorem State.setFb_key (f : Framebuffer) : (s.setFb f).key = s.key := rfl
@[simp] theorem State.setFb_fb (f : Framebuffer) : (s.setFb f).fb = f := rfl
@[simp] theorem State.setFb_mem (f : Framebuffer) : (s.setFb f).mem = s.mem := rfl
@[simp] theorem State.setFb_cfg (f : Framebuffer) : (s.setFb f).cfg = s.cfg := rfl
@[simp] theorem State.setFb_rndIn (f : Framebuffer) : (s.setFb f).rndIn = s.rndIn := rfl
@[simp] theorem State.setFb_draws (f : Framebuffer) : (s.setFb f).draws = s.draws := rfl
@[simp] theorem State.setFb_getV (f : Framebuffer) (r : Reg) : (s.setFb f).getV r = s.getV r := rfl
@[simp] theorem State.setFb_readByte (f : Framebuffer) (k : Nat) : (s.setFb f).readByte k = s.readByte k := rfl

/-! ### `raise` -/

@[simp] theorem State.raise_v (f : Fault) : (s.raise f).v = s.v := rfl
@[simp] theorem State.raise_pc (f : Fault) : (s.raise f).pc = s.pc := rfl
@[simp] theorem State.raise_i (f : Fault) : (s.raise f).i = s.i := rfl
@[simp] theorem State.raise_stack (f : Fault) : (s.raise f).stack = s.stack := rfl
@[simp] theorem State.raise_sp (f : Fault) : (s.raise f).sp = s.sp := rfl
@[simp] theorem State.raise_dt (f : Fault) : (s.raise f).dt = s.dt := rfl
@[simp] theorem State.raise_st (f : Fault) : (s.raise f).st = s.st := rfl
@[simp] theorem State.raise_ir (f : Fault) : (s.raise f).ir = s.ir := rfl
@[simp] theorem State.raise_fault (f : Fault) : (s.raise f).fault = f.code := rfl
@[simp] theorem State.raise_key (f : Fault) : (s.raise f).key = s.key := rfl
@[simp] theorem State.raise_fb (f : Fault) : (s.raise f).fb = s.fb := rfl
@[simp] theorem State.raise_mem (f : Fault) : (s.raise f).mem = s.mem := rfl
@[simp] theorem State.raise_cfg (f : Fault) : (s.raise f).cfg = s.cfg := rfl
@[simp] theorem State.raise_rndIn (f : Fault) : (s.raise f).rndIn = s.rndIn := rfl
@[simp] theorem State.raise_draws (f : Fault) : (s.raise f).draws = s.draws := rfl
@[simp] theorem State.raise_getV (f : Fault) (r : Reg) : (s.raise f).getV r = s.getV r := rfl
@[simp] theorem State.raise_readByte (f : Fault) (k : Nat) : (s.raise f).readByte k = s.readByte k := rfl

/-! ### `writeByte` -/

@[simp] theorem State.writeByte_v (a : Nat) (b : Byte) : (s.writeByte a b).v = s.v := rfl
@[simp] theorem State.writeByte_pc (a : Nat) (b : Byte) : (s.writeByte a b).pc = s.pc := rfl
@[simp] theorem State.writeByte_i (a : Nat) (b : Byte) : (s.writeByte a b).i = s.i := rfl
@[simp] theorem State.writeByte_stack (a : Nat) (b : Byte) : (s.writeByte a b).stack = s.stack := rfl
@[simp] theorem State.writeByte_sp (a : Nat) (b : Byte) : (s.writeByte a b).sp = s.sp := rfl
@[simp] theorem State.writeByte_dt (a : Nat) (b : Byte) : (s.writeByte a b).dt = s.dt := rfl
@[simp] theorem State.writeByte_st (a : Nat) (b : Byte) : (s.writeByte a b).st = s.st := rfl
@[simp] theorem State.writeByte_ir (a : Nat) (b : Byte) : (s.writeByte a b).ir = s.ir := rfl
@[simp] theorem State.writeByte_fault (a : Nat) (b : Byte) : (s.writeByte a b).fault = s.fault := rfl
@[simp] theorem State.writeByte_key (a : Nat) (b : Byte) : (s.writeByte a b).key = s.key := rfl
@[simp] theorem State.writeByte_fb (a : Nat) (b : Byte) : (s.writeByte a b).fb = s.fb := rfl
@[simp] theorem State.writeByte_mem (a : Nat) (b : Byte) : (s.writeByte a b).mem = Memory.write s.cfg s.mem a b := rfl
@[simp] theorem State.writeByte_cfg (a : Nat) (b : Byte) : (s.writeByte a b).cfg = s.cfg := rfl
@[simp] theorem State.writeByte_rndIn (a : Nat) (b : Byte) : (s.writeByte a b).rndIn = s.rndIn := rfl
@[simp] theorem State.writeByte_draws (a : Nat) (b : Byte) : (s.writeByte a b).draws = s.draws := rfl
@[simp] theorem State.writeByte_getV (a : Nat) (b : Byte) (r : Reg) : (s.writeByte a b).getV r = s.getV r := rfl

/-! ### `tick` -/

@[simp] theorem State.tick_v : s.tick.v = s.v := rfl
@[simp] theorem State.tick_pc : s.tick.pc = s.pc := rfl
@[simp] theorem State.tick_i : s.tick.i = s.i := rfl
@[simp] theorem State.tick_stack : s.tick.stack = s.stack := rfl
@[simp] theorem State.tick_sp : s.tick.sp = s.sp := rfl
@[simp] theorem State.tick_dt : s.tick.dt = countDown s.dt := rfl
@[simp] theorem State.tick_st : s.tick.st = countDown s.st := rfl
@[simp] theorem State.tick_ir : s.tick.ir = s.ir := rfl
@[simp] theorem State.tick_fault : s.tick.fault = s.fault := rfl
@[simp] theorem State.tick_key : s.tick.key = s.key := rfl
@[simp] theorem State.tick_fb : s.tick.fb = s.fb := rfl
@[simp] theorem State.tick_mem : s.tick.mem = s.mem := rfl
@[simp] theorem State.tick_cfg : s.tick.cfg = s.cfg := rfl
@[simp] theorem State.tick_rndIn : s.tick.rndIn = s.rndIn := rfl
@[simp] theorem State.tick_draws : s.tick.draws = s.draws := rfl
@[simp] theorem State.tick_getV (r : Reg) : s.tick.getV r = s.getV r := rfl
@[simp] theorem State.tick_readByte (k : Nat) : s.tick.readByte k = s.readByte k := rfl

/-! ### `spendRnd` -/

@[simp] theorem State.spendRnd_v : s.spendRnd.v = s.v := rfl
@[simp] theorem State.spendRnd_pc : s.spendRnd.pc = s.pc := rfl
@[simp] theorem State.spendRnd_i : s.spendRnd.i = s.i := rfl
@[simp] theorem State.spendRnd_stack : s.spendRnd.stack = s.stack := rfl
@[simp] theorem State.spendRnd_sp : s.spendRnd.sp = s.sp := rfl
@[simp] theorem State.spendRnd_dt : s.spendRnd.dt = s.dt := rfl
@[simp] theorem State.spendRnd_st : s.spendRnd.st = s.st := rfl
@[simp] theorem State.spendRnd_ir : s.spendRnd.ir = s.ir := rfl
@[simp] theorem State.spendRnd_fault : s.spendRnd.fault = s.fault := rfl
@[simp] theorem State.spendRnd_key : s.spendRnd.key = s.key := rfl
@[simp] theorem State.spendRnd_fb : s.spendRnd.fb = s.fb := rfl
@[simp] theorem State.spendRnd_mem : s.spendRnd.mem = s.mem := rfl
@[simp] theorem State.spendRnd_cfg : s.spendRnd.cfg = s.cfg := rfl
@[simp] theorem State.spendRnd_rndIn : s.spendRnd.rndIn = s.rndIn.tail := rfl
@[simp] theorem State.spendRnd_draws : s.spendRnd.draws = s.draws + 1 := rfl
@[simp] theorem State.spendRnd_getV (r : Reg) : s.spendRnd.getV r = s.getV r := rfl
@[simp] theorem State.spendRnd_readByte (k : Nat) : s.spendRnd.readByte k = s.readByte k := rfl

/-! ### Registers: read after write -/

theorem State.getV_setV (x r : Reg) (b : Byte) : (s.setV x b).getV r = if r = x then b else s.getV r := by
  by_cases h : r = x
  · subst h; simp [State.getV, State.setV]
  · have hv : x.val ≠ r.val := fun e => h (Fin.ext e.symm)
    simp [State.getV, State.setV, h, hv]

@[simp] theorem State.getV_setV_self (x : Reg) (b : Byte) : (s.setV x b).getV x = b := by simp [State.getV_setV]

theorem State.getV_setV_ne {x r : Reg} (h : r ≠ x) (b : Byte) : (s.setV x b).getV r = s.getV r := by
  simp [State.getV_setV, h]

/-- Two states whose registers read alike have the same register file. -/
theorem State.v_ext {s t : State} (h : ∀ r, s.getV r = t.getV r) : s.v = t.v := by
  apply Vector.ext
  intro k hk
  exact h ⟨k, hk⟩

/-! ### The state after `Initialize`, field by field (spec/10_state.md R27) -/

@[simp] theorem State.initial_pc (c : Config) : (State.initial c).pc = c.programOrigin := rfl
@[simp] theorem State.initial_i (c : Config) : (State.initial c).i = 0 := rfl
@[simp] theorem State.initial_sp (c : Config) : (State.initial c).sp = 0 := rfl
@[simp] theorem State.initial_dt (c : Config) : (State.initial c).dt = 0 := rfl
@[simp] theorem State.initial_st (c : Config) : (State.initial c).st = 0 := rfl
@[simp] theorem State.initial_ir (c : Config) : (State.initial c).ir = 0 := rfl
@[simp] theorem State.initial_fault (c : Config) : (State.initial c).fault = 0 := rfl
@[simp] theorem State.initial_key (c : Config) : (State.initial c).key = 0 := rfl
@[simp] theorem State.initial_mem (c : Config) : (State.initial c).mem = [] := rfl
@[simp] theorem State.initial_cfg (c : Config) : (State.initial c).cfg = c := rfl
@[simp] theorem State.initial_rndIn (c : Config) : (State.initial c).rndIn = [] := rfl
@[simp] theorem State.initial_draws (c : Config) : (State.initial c).draws = 0 := rfl
@[simp] theorem State.initial_getV (c : Config) (r : Reg) : (State.initial c).getV r = 0 := by
  simp [State.getV, State.initial]
@[simp] theorem State.initial_stack (c : Config) (k : Fin 16) : (State.initial c).stack[k.val] = 0 := by
  simp [State.initial]
@[simp] theorem State.initial_readByte (c : Config) (a : Nat) : (State.initial c).readByte a = Memory.unlisted c a := rfl

end Sys2Proof.Machine
end

