-- ==== Sys2Proof/Laws/Memory.lean ====
section
/-!
SUPPORT. Memory: read after write, and that every operation keeps the canonical form (spec/20_memory.md).
-/

namespace Sys2Proof.Machine

/-! ### The cell list -/

theorem Memory.find_put (a b : Nat) (d : Byte) (m : Memory) :
    Memory.find b (Memory.put a d m) = if b = a then some d else Memory.find b m := by
  induction m with
  | nil => simp only [Memory.put, Memory.find]
  | cons p m ih =>
    obtain ⟨k, e⟩ := p
    simp only [Memory.put]
    split
    · simp only [Memory.find]
    · split
      · subst k
        simp only [Memory.find]
        split <;> rfl
      · simp only [Memory.find, ih]
        by_cases hb : b = k
        · subst hb
          have : b ≠ a := fun h => by omega
          simp [this]
        · simp [hb]

/-- An address below every listed one is not listed. -/
theorem Memory.find_of_lt {b : Nat} {m : Memory} (h : ∀ p ∈ m, b < p.1) : Memory.find b m = none := by
  induction m with
  | nil => rfl
  | cons p m ih =>
    have hp : b ≠ p.1 := by have := h p (by simp); omega
    simp only [Memory.find, hp, if_false]
    exact ih fun q hq => h q (by simp [hq])

theorem Memory.find_drop {a b : Nat} {m : Memory} (h : m.Pairwise (fun p q => p.1 < q.1)) :
    Memory.find b (Memory.drop a m) = if b = a then none else Memory.find b m := by
  induction m with
  | nil => simp [Memory.drop, Memory.find]
  | cons p m ih =>
    obtain ⟨k, e⟩ := p
    obtain ⟨hk, hm⟩ := List.pairwise_cons.mp h
    simp only [Memory.drop]
    split
    · rename_i hak
      subst hak
      by_cases hb : b = a
      · subst hb
        simp [Memory.find_of_lt hk]
      · simp [Memory.find, hb]
    · rename_i hak
      simp only [Memory.find, ih hm]
      by_cases hb : b = k
      · subst hb
        have : b ≠ a := fun h => hak h.symm
        simp [this]
      · simp [hb]

theorem Memory.mem_put {a : Nat} {d : Byte} {m : Memory} {p : Host.Cell} (h : p ∈ Memory.put a d m) :
    p = (a, d) ∨ p ∈ m := by
  induction m with
  | nil => simpa [Memory.put] using h
  | cons q m ih =>
    obtain ⟨k, e⟩ := q
    simp only [Memory.put] at h
    split at h
    · simpa using h
    · split at h
      · rcases List.mem_cons.mp h with h | h
        · exact .inl h
        · exact .inr (by simp [h])
      · rcases List.mem_cons.mp h with h | h
        · exact .inr (by simp [h])
        · rcases ih h with h | h
          · exact .inl h
          · exact .inr (by simp [h])

theorem Memory.mem_drop {a : Nat} {m : Memory} {p : Host.Cell} (h : p ∈ Memory.drop a m) : p ∈ m := by
  induction m with
  | nil => simp [Memory.drop] at h
  | cons q m ih =>
    obtain ⟨k, e⟩ := q
    simp only [Memory.drop] at h
    split at h
    · simp [h]
    · rcases List.mem_cons.mp h with h | h
      · simp [h]
      · simp [ih h]

theorem Memory.put_rising {a : Nat} {d : Byte} {m : Memory} (h : m.Pairwise (fun p q => p.1 < q.1)) :
    (Memory.put a d m).Pairwise (fun p q => p.1 < q.1) := by
  induction m with
  | nil => simp [Memory.put]
  | cons q m ih =>
    obtain ⟨k, e⟩ := q
    obtain ⟨hk, hm⟩ := List.pairwise_cons.mp h
    simp only [Memory.put]
    split
    · rename_i hlt
      refine List.pairwise_cons.mpr ⟨fun p hp => ?_, h⟩
      rcases List.mem_cons.mp hp with rfl | hp
      · exact hlt
      · exact Nat.lt_trans hlt (hk p hp)
    · split
      · rename_i hak
        subst hak
        exact List.pairwise_cons.mpr ⟨hk, hm⟩
      · rename_i hlt hne
        refine List.pairwise_cons.mpr ⟨fun p hp => ?_, ih hm⟩
        rcases Memory.mem_put hp with rfl | hp
        · show k < a
          omega
        · exact hk p hp

theorem Memory.drop_rising {a : Nat} {m : Memory} (h : m.Pairwise (fun p q => p.1 < q.1)) :
    (Memory.drop a m).Pairwise (fun p q => p.1 < q.1) := by
  induction m with
  | nil => simp [Memory.drop]
  | cons q m ih =>
    obtain ⟨k, e⟩ := q
    obtain ⟨hk, hm⟩ := List.pairwise_cons.mp h
    simp only [Memory.drop]
    split
    · exact hm
    · exact List.pairwise_cons.mpr ⟨fun p hp => hk p (Memory.mem_drop hp), ih hm⟩

/-! ### One byte -/

/-- Read after write, on a canonical memory: the byte written, and every other byte as before. -/
theorem Memory.read_write {c : Config} {m : Memory} (h : Memory.wf c m) (a b : Nat) (d : Byte) :
    Memory.read c (Memory.write c m a d) b = if b = a then d else Memory.read c m b := by
  unfold Memory.write
  split
  · rename_i hd
    simp only [Memory.read, Memory.find_drop h.1]
    by_cases hb : b = a
    · subst hb; simp [hd]
    · simp [hb]
  · simp only [Memory.read, Memory.find_put]
    by_cases hb : b = a
    · simp [hb]
    · simp [hb]

/-- A write inside memory keeps the canonical form. -/
theorem Memory.write_wf {c : Config} {m : Memory} (h : Memory.wf c m) {a : Nat} (ha : a < 4096) (d : Byte) :
    Memory.wf c (Memory.write c m a d) := by
  unfold Memory.write
  split
  · exact ⟨Memory.drop_rising h.1, fun p hp => h.2 p (Memory.mem_drop hp)⟩
  · rename_i hd
    refine ⟨Memory.put_rising h.1, fun p hp => ?_⟩
    rcases Memory.mem_put hp with rfl | hp
    · exact ⟨ha, hd⟩
    · exact h.2 p hp

theorem Memory.nil_wf (c : Config) : Memory.wf c [] := ⟨List.Pairwise.nil, fun _ h => nomatch h⟩

theorem State.readByte_writeByte {s : State} (h : Memory.wf s.cfg s.mem) (a b : Nat) (d : Byte) :
    (s.writeByte a d).readByte b = if b = a then d else s.readByte b :=
  Memory.read_write h a b d

/-! ### Runs of bytes -/

/-- `writeBytes` changes memory and nothing else. -/
theorem State.writeBytes_eq (s : State) (a : Nat) (bs : List Byte) :
    s.writeBytes a bs = { s with mem := (s.writeBytes a bs).mem } := by
  induction bs generalizing s a with
  | nil => rfl
  | cons b bs ih => simpa [State.writeBytes, State.writeByte] using ih (s.writeByte a b) (a + 1)

section
variable (s : State) (a : Nat) (bs : List Byte)
@[simp] theorem State.writeBytes_v : (s.writeBytes a bs).v = s.v := by rw [State.writeBytes_eq]
@[simp] theorem State.writeBytes_pc : (s.writeBytes a bs).pc = s.pc := by rw [State.writeBytes_eq]
@[simp] theorem State.writeBytes_i : (s.writeBytes a bs).i = s.i := by rw [State.writeBytes_eq]
@[simp] theorem State.writeBytes_stack : (s.writeBytes a bs).stack = s.stack := by rw [State.writeBytes_eq]
@[simp] theorem State.writeBytes_sp : (s.writeBytes a bs).sp = s.sp := by rw [State.writeBytes_eq]
@[simp] theorem State.writeBytes_dt : (s.writeBytes a bs).dt = s.dt := by rw [State.writeBytes_eq]
@[simp] theorem State.writeBytes_st : (s.writeBytes a bs).st = s.st := by rw [State.writeBytes_eq]
@[simp] theorem State.writeBytes_ir : (s.writeBytes a bs).ir = s.ir := by rw [State.writeBytes_eq]
@[simp] theorem State.writeBytes_fault : (s.writeBytes a bs).fault = s.fault := by rw [State.writeBytes_eq]
@[simp] theorem State.writeBytes_key : (s.writeBytes a bs).key = s.key := by rw [State.writeBytes_eq]
@[simp] theorem State.writeBytes_fb : (s.writeBytes a bs).fb = s.fb := by rw [State.writeBytes_eq]
@[simp] theorem State.writeBytes_cfg : (s.writeBytes a bs).cfg = s.cfg := by rw [State.writeBytes_eq]
@[simp] theorem State.writeBytes_rndIn : (s.writeBytes a bs).rndIn = s.rndIn := by rw [State.writeBytes_eq]
@[simp] theorem State.writeBytes_draws : (s.writeBytes a bs).draws = s.draws := by rw [State.writeBytes_eq]
@[simp] theorem State.writeBytes_getV (r : Reg) : (s.writeBytes a bs).getV r = s.getV r := by
  simp [State.getV]
end

/-- A run of writes inside memory keeps the canonical form. -/
theorem State.writeBytes_wf {s : State} (h : Memory.wf s.cfg s.mem) {a : Nat} {bs : List Byte}
    (hr : a + bs.length ≤ 4096) : Memory.wf s.cfg (s.writeBytes a bs).mem := by
  induction bs generalizing s a with
  | nil => exact h
  | cons b bs ih =>
    simp only [List.length_cons] at hr
    exact ih (s := s.writeByte a b) (Memory.write_wf h (by omega) b) (by omega)

/-- Reading after a run of writes: the byte of the run, and outside it the byte as before. -/
theorem State.readByte_writeBytes {s : State} (h : Memory.wf s.cfg s.mem) {a : Nat} {bs : List Byte}
    (hr : a + bs.length ≤ 4096) (k : Nat) :
    (s.writeBytes a bs).readByte k =
      if a ≤ k ∧ k < a + bs.length then bs.getD (k - a) 0 else s.readByte k := by
  induction bs generalizing s a with
  | nil =>
    have : ¬ (a ≤ k ∧ k < a + 0) := by omega
    simp only [State.writeBytes, List.length_nil, this, if_false]
  | cons b bs ih =>
    simp only [List.length_cons] at hr ⊢
    have hw : Memory.wf (s.writeByte a b).cfg (s.writeByte a b).mem := Memory.write_wf h (by omega) b
    simp only [State.writeBytes]
    rw [ih hw (by omega), State.readByte_writeByte h]
    by_cases hk : k = a
    · subst hk
      have h2 : k ≤ k ∧ k < k + (bs.length + 1) := by omega
      simp [h2]
    · by_cases hi : a + 1 ≤ k ∧ k < a + 1 + bs.length
      · have h2 : a ≤ k ∧ k < a + (bs.length + 1) := by omega
        have h3 : k - a = (k - (a + 1)) + 1 := by omega
        rw [if_pos hi, if_pos h2, h3, List.getD_cons_succ]
      · have h2 : ¬ (a ≤ k ∧ k < a + (bs.length + 1)) := by omega
        rw [if_neg hi, if_neg h2, if_neg hk]

theorem State.readBytes_length (s : State) (a n : Nat) : (s.readBytes a n).length = n := by
  induction n generalizing a with
  | zero => rfl
  | succ n ih => simp [State.readBytes, ih]

theorem State.readBytes_getD {s : State} {a n k : Nat} (h : k < n) : (s.readBytes a n).getD k 0 = s.readByte (a + k) := by
  induction n generalizing a k with
  | zero => omega
  | succ n ih =>
    cases k with
    | zero => simp [State.readBytes]
    | succ k =>
      rw [State.readBytes, List.getD_cons_succ, ih (by omega)]
      congr 1; omega

end Sys2Proof.Machine
end

