-- ==== Sys2Proof/Laws/Ops.lean ====
section
/-!
SUPPORT. What each shared operation can do, said once.
-/

namespace Sys2Proof.Machine

/-! ### Halting -/

theorem State.halted_iff (s : State) : s.halted = true ↔ s.fault ≠ 0 := by simp [State.halted]

@[simp] theorem State.raise_halted (s : State) (f : Fault) : (s.raise f).halted = true := by cases f <;> rfl

theorem Fault.code_ne_zero (f : Fault) : f.code ≠ 0 := by cases f <;> decide

theorem Fault.code_le_five (f : Fault) : f.code.toNat ≤ 5 := by cases f <;> decide

theorem Fault.code_injective {f g : Fault} (h : f.code = g.code) : f = g := by
  cases f <;> cases g <;> first | rfl | exact absurd h (by decide)

/-! ### The call stack -/

/-- With room, a push stores at `SP` and then increments. -/
theorem State.push_of_lt {s : State} (h : s.sp.val < 16) (a : Word) :
    s.push a = { s with stack := s.stack.set s.sp.val a, sp := ⟨s.sp.val + 1, by omega⟩ } := by
  simp [State.push, h]

/-- With an entry, a pop decrements and then loads `PC`. -/
theorem State.popPc_of_pos {s : State} (h : 0 < s.sp.val) :
    s.popPc = { s with sp := ⟨s.sp.val - 1, by omega⟩, pc := s.stack[s.sp.val - 1] } := by
  simp [State.popPc, h]

/-! ### Skips -/

/-- A skip moves `PC` and nothing else. -/
theorem State.skipIf_eq (s : State) (c : Bool) : s.skipIf c = s.setPc (if c then s.pc + 4 else s.pc + 2) := by
  cases c
  · rfl
  · simp only [State.skipIf, State.advancePc, State.setPc, if_true, BitVec.add_assoc]
    rfl

/-! ### Flag and result -/

/-- The result stands in the destination, the flag in VF unless VF is the destination, every other register as before. -/
theorem State.setFlagThenV_getV (s : State) (x r : Reg) (f : Bool) (b : Byte) :
    (s.setFlagThenV x f b).getV r = if r = x then b else if r = vf then flagByte f else s.getV r := by
  simp [State.setFlagThenV, State.getV_setV]

/-- `setFlagThenV` changes the registers and nothing else. -/
theorem State.setFlagThenV_eq (s : State) (x : Reg) (f : Bool) (b : Byte) :
    s.setFlagThenV x f b = { s with v := (s.setFlagThenV x f b).v } := rfl

/-! ### Register ranges -/

theorem mem_regsUpTo (x r : Reg) : r ∈ regsUpTo x ↔ r ≤ x := by revert x r; decide

theorem regsUpTo_length (x : Reg) : (regsUpTo x).length = x.val + 1 := by revert x; decide

theorem regsUpTo_getD (x : Reg) (k : Nat) (h : k ≤ x.val) : (regsUpTo x).getD k 0 = ⟨k, by omega⟩ := by
  have key : ∀ x : Reg, ∀ j : Fin 16, j ≤ x → (regsUpTo x).getD j.val 0 = j := by decide
  exact key x ⟨k, by omega⟩ h

/-- A bulk load changes the registers and nothing else. -/
theorem State.loadRegs_eq (s : State) (rs : List Reg) : s.loadRegs rs = { s with v := (s.loadRegs rs).v } := by
  induction rs generalizing s with
  | nil => rfl
  | cons r rs ih => simpa [State.loadRegs, State.setV] using ih (s.setV r (s.readByte (s.dataAddress r.val)))

/-- A bulk load gives each listed register its byte and leaves the others. -/
theorem State.loadRegs_getV (s : State) (rs : List Reg) (r : Reg) :
    (s.loadRegs rs).getV r = if r ∈ rs then s.readByte (s.i.toNat + r.val) else s.getV r := by
  induction rs generalizing s with
  | nil => simp [State.loadRegs]
  | cons q rs ih =>
    simp only [State.loadRegs, ih, State.setV_readByte, State.setV_i, State.getV_setV, State.dataAddress]
    by_cases h : r ∈ rs
    · simp [h]
    · by_cases hq : r = q
      · subst hq; simp [h]
      · simp [h, hq]

/-! ### Data ranges -/

theorem State.dataInRange_iff (s : State) (len : Nat) :
    s.dataInRange len = true ↔ len = 0 ∨ s.i.toNat + len ≤ 4096 := by
  unfold State.dataInRange State.dataAddress
  cases len with
  | zero => simp
  | succ n => simp only [Nat.add_sub_cancel, Bool.or_eq_true, beq_iff_eq, decide_eq_true_eq]; omega

/-! ### Timers and the random byte -/

theorem countDown_zero : countDown 0 = 0 := rfl

theorem countDown_of_ne_zero {b : Byte} (h : b ≠ 0) : countDown b = b - 1 := by
  have hb : b.toNat ≠ 0 := fun e => h (BitVec.eq_of_toNat_eq e)
  have : (0 : Byte) < b := BitVec.lt_def.mpr (Nat.pos_of_ne_zero hb)
  exact if_pos this

/-- The host's byte, where it has supplied one (spec/10_state.md R31). -/
theorem State.rndByte_cons {s : State} {r : Byte} {rs : List Byte} (h : s.rndIn = r :: rs) : s.rndByte = r := by
  simp [State.rndByte, h]

/-- A free byte, where it has not. -/
theorem State.rndByte_nil {s : State} (h : s.rndIn = []) : s.rndByte = Config.freeByte s.draws := by
  simp [State.rndByte, h]

/-! ### The framebuffer -/

theorem Framebuffer.pixel_toggle (f : Framebuffer) (y y' : Fin 32) (x x' : Fin 64) :
    Framebuffer.pixel (Framebuffer.toggle f y x) y' x' =
      (Framebuffer.pixel f y' x' ^^ decide (y' = y ∧ x' = x)) := by
  unfold Framebuffer.pixel Framebuffer.toggle
  by_cases hy : y' = y
  · subst hy
    rw [Vector.getElem_set_self, BitVec.getLsbD_xor, BitVec.getLsbD_twoPow]
    by_cases hx : x' = x
    · subst hx; simp
    · have hv : x.val ≠ x'.val := fun h => hx (Fin.ext h.symm)
      simp [hx, hv]
  · have hv : y.val ≠ y'.val := fun h => hy (Fin.ext h.symm)
    rw [Vector.getElem_set_ne _ _ hv]
    simp [hy]

theorem Framebuffer.pixel_dark (y : Fin 32) (x : Fin 64) : Framebuffer.pixel Framebuffer.dark y x = false := by
  simp [Framebuffer.pixel, Framebuffer.dark]

/-- Two framebuffers with the same pixels are equal. -/
theorem Framebuffer.ext_pixel {f g : Framebuffer} (h : ∀ y x, Framebuffer.pixel f y x = Framebuffer.pixel g y x) :
    f = g := by
  apply Vector.ext
  intro k hk
  apply BitVec.eq_of_getLsbD_eq
  intro j hj
  exact h ⟨k, hk⟩ ⟨j, hj⟩

section
variable (s : State)

/-! ### `push`, field by field -/

@[simp] theorem State.push_v (a : Word) : (s.push a).v = s.v := by unfold State.push; split <;> rfl
@[simp] theorem State.push_pc (a : Word) : (s.push a).pc = s.pc := by unfold State.push; split <;> rfl
@[simp] theorem State.push_i (a : Word) : (s.push a).i = s.i := by unfold State.push; split <;> rfl
@[simp] theorem State.push_dt (a : Word) : (s.push a).dt = s.dt := by unfold State.push; split <;> rfl
@[simp] theorem State.push_st (a : Word) : (s.push a).st = s.st := by unfold State.push; split <;> rfl
@[simp] theorem State.push_ir (a : Word) : (s.push a).ir = s.ir := by unfold State.push; split <;> rfl
@[simp] theorem State.push_fault (a : Word) : (s.push a).fault = s.fault := by unfold State.push; split <;> rfl
@[simp] theorem State.push_key (a : Word) : (s.push a).key = s.key := by unfold State.push; split <;> rfl
@[simp] theorem State.push_fb (a : Word) : (s.push a).fb = s.fb := by unfold State.push; split <;> rfl
@[simp] theorem State.push_mem (a : Word) : (s.push a).mem = s.mem := by unfold State.push; split <;> rfl
@[simp] theorem State.push_cfg (a : Word) : (s.push a).cfg = s.cfg := by unfold State.push; split <;> rfl
@[simp] theorem State.push_rndIn (a : Word) : (s.push a).rndIn = s.rndIn := by unfold State.push; split <;> rfl
@[simp] theorem State.push_draws (a : Word) : (s.push a).draws = s.draws := by unfold State.push; split <;> rfl
@[simp] theorem State.push_getV (a : Word) (r : Reg) : (s.push a).getV r = s.getV r := by simp [State.getV]
@[simp] theorem State.push_readByte (a : Word) (k : Nat) : (s.push a).readByte k = s.readByte k := by simp [State.readByte]

/-! ### `popPc`, field by field -/

@[simp] theorem State.popPc_v : s.popPc.v = s.v := by unfold State.popPc; split <;> rfl
@[simp] theorem State.popPc_i : s.popPc.i = s.i := by unfold State.popPc; split <;> rfl
@[simp] theorem State.popPc_stack : s.popPc.stack = s.stack := by unfold State.popPc; split <;> rfl
@[simp] theorem State.popPc_dt : s.popPc.dt = s.dt := by unfold State.popPc; split <;> rfl
@[simp] theorem State.popPc_st : s.popPc.st = s.st := by unfold State.popPc; split <;> rfl
@[simp] theorem State.popPc_ir : s.popPc.ir = s.ir := by unfold State.popPc; split <;> rfl
@[simp] theorem State.popPc_fault : s.popPc.fault = s.fault := by unfold State.popPc; split <;> rfl
@[simp] theorem State.popPc_key : s.popPc.key = s.key := by unfold State.popPc; split <;> rfl
@[simp] theorem State.popPc_fb : s.popPc.fb = s.fb := by unfold State.popPc; split <;> rfl
@[simp] theorem State.popPc_mem : s.popPc.mem = s.mem := by unfold State.popPc; split <;> rfl
@[simp] theorem State.popPc_cfg : s.popPc.cfg = s.cfg := by unfold State.popPc; split <;> rfl
@[simp] theorem State.popPc_rndIn : s.popPc.rndIn = s.rndIn := by unfold State.popPc; split <;> rfl
@[simp] theorem State.popPc_draws : s.popPc.draws = s.draws := by unfold State.popPc; split <;> rfl
@[simp] theorem State.popPc_getV (r : Reg) : s.popPc.getV r = s.getV r := by simp [State.getV]
@[simp] theorem State.popPc_readByte (k : Nat) : s.popPc.readByte k = s.readByte k := by simp [State.readByte]

/-! ### `skipIf`, field by field -/

@[simp] theorem State.skipIf_v (c : Bool) : (s.skipIf c).v = s.v := by rw [State.skipIf_eq]; rfl
@[simp] theorem State.skipIf_i (c : Bool) : (s.skipIf c).i = s.i := by rw [State.skipIf_eq]; rfl
@[simp] theorem State.skipIf_stack (c : Bool) : (s.skipIf c).stack = s.stack := by rw [State.skipIf_eq]; rfl
@[simp] theorem State.skipIf_sp (c : Bool) : (s.skipIf c).sp = s.sp := by rw [State.skipIf_eq]; rfl
@[simp] theorem State.skipIf_dt (c : Bool) : (s.skipIf c).dt = s.dt := by rw [State.skipIf_eq]; rfl
@[simp] theorem State.skipIf_st (c : Bool) : (s.skipIf c).st = s.st := by rw [State.skipIf_eq]; rfl
@[simp] theorem State.skipIf_ir (c : Bool) : (s.skipIf c).ir = s.ir := by rw [State.skipIf_eq]; rfl
@[simp] theorem State.skipIf_fault (c : Bool) : (s.skipIf c).fault = s.fault := by rw [State.skipIf_eq]; rfl
@[simp] theorem State.skipIf_key (c : Bool) : (s.skipIf c).key = s.key := by rw [State.skipIf_eq]; rfl
@[simp] theorem State.skipIf_fb (c : Bool) : (s.skipIf c).fb = s.fb := by rw [State.skipIf_eq]; rfl
@[simp] theorem State.skipIf_mem (c : Bool) : (s.skipIf c).mem = s.mem := by rw [State.skipIf_eq]; rfl
@[simp] theorem State.skipIf_cfg (c : Bool) : (s.skipIf c).cfg = s.cfg := by rw [State.skipIf_eq]; rfl
@[simp] theorem State.skipIf_rndIn (c : Bool) : (s.skipIf c).rndIn = s.rndIn := by rw [State.skipIf_eq]; rfl
@[simp] theorem State.skipIf_draws (c : Bool) : (s.skipIf c).draws = s.draws := by rw [State.skipIf_eq]; rfl
@[simp] theorem State.skipIf_getV (c : Bool) (r : Reg) : (s.skipIf c).getV r = s.getV r := by simp [State.getV]
@[simp] theorem State.skipIf_readByte (c : Bool) (k : Nat) : (s.skipIf c).readByte k = s.readByte k := by simp [State.readByte]

/-! ### `setFlagThenV`, field by field -/

@[simp] theorem State.setFlagThenV_pc (x : Reg) (f : Bool) (b : Byte) : (s.setFlagThenV x f b).pc = s.pc := rfl
@[simp] theorem State.setFlagThenV_i (x : Reg) (f : Bool) (b : Byte) : (s.setFlagThenV x f b).i = s.i := rfl
@[simp] theorem State.setFlagThenV_stack (x : Reg) (f : Bool) (b : Byte) : (s.setFlagThenV x f b).stack = s.stack := rfl
@[simp] theorem State.setFlagThenV_sp (x : Reg) (f : Bool) (b : Byte) : (s.setFlagThenV x f b).sp = s.sp := rfl
@[simp] theorem State.setFlagThenV_dt (x : Reg) (f : Bool) (b : Byte) : (s.setFlagThenV x f b).dt = s.dt := rfl
@[simp] theorem State.setFlagThenV_st (x : Reg) (f : Bool) (b : Byte) : (s.setFlagThenV x f b).st = s.st := rfl
@[simp] theorem State.setFlagThenV_ir (x : Reg) (f : Bool) (b : Byte) : (s.setFlagThenV x f b).ir = s.ir := rfl
@[simp] theorem State.setFlagThenV_fault (x : Reg) (f : Bool) (b : Byte) : (s.setFlagThenV x f b).fault = s.fault := rfl
@[simp] theorem State.setFlagThenV_key (x : Reg) (f : Bool) (b : Byte) : (s.setFlagThenV x f b).key = s.key := rfl
@[simp] theorem State.setFlagThenV_fb (x : Reg) (f : Bool) (b : Byte) : (s.setFlagThenV x f b).fb = s.fb := rfl
@[simp] theorem State.setFlagThenV_mem (x : Reg) (f : Bool) (b : Byte) : (s.setFlagThenV x f b).mem = s.mem := rfl
@[simp] theorem State.setFlagThenV_cfg (x : Reg) (f : Bool) (b : Byte) : (s.setFlagThenV x f b).cfg = s.cfg := rfl
@[simp] theorem State.setFlagThenV_rndIn (x : Reg) (f : Bool) (b : Byte) : (s.setFlagThenV x f b).rndIn = s.rndIn := rfl
@[simp] theorem State.setFlagThenV_draws (x : Reg) (f : Bool) (b : Byte) : (s.setFlagThenV x f b).draws = s.draws := rfl
@[simp] theorem State.setFlagThenV_readByte (x : Reg) (f : Bool) (b : Byte) (k : Nat) : (s.setFlagThenV x f b).readByte k = s.readByte k := by simp [State.readByte]

/-! ### `loadRegs`, field by field -/

@[simp] theorem State.loadRegs_pc (rs : List Reg) : (s.loadRegs rs).pc = s.pc := by rw [State.loadRegs_eq]
@[simp] theorem State.loadRegs_i (rs : List Reg) : (s.loadRegs rs).i = s.i := by rw [State.loadRegs_eq]
@[simp] theorem State.loadRegs_stack (rs : List Reg) : (s.loadRegs rs).stack = s.stack := by rw [State.loadRegs_eq]
@[simp] theorem State.loadRegs_sp (rs : List Reg) : (s.loadRegs rs).sp = s.sp := by rw [State.loadRegs_eq]
@[simp] theorem State.loadRegs_dt (rs : List Reg) : (s.loadRegs rs).dt = s.dt := by rw [State.loadRegs_eq]
@[simp] theorem State.loadRegs_st (rs : List Reg) : (s.loadRegs rs).st = s.st := by rw [State.loadRegs_eq]
@[simp] theorem State.loadRegs_ir (rs : List Reg) : (s.loadRegs rs).ir = s.ir := by rw [State.loadRegs_eq]
@[simp] theorem State.loadRegs_fault (rs : List Reg) : (s.loadRegs rs).fault = s.fault := by rw [State.loadRegs_eq]
@[simp] theorem State.loadRegs_key (rs : List Reg) : (s.loadRegs rs).key = s.key := by rw [State.loadRegs_eq]
@[simp] theorem State.loadRegs_fb (rs : List Reg) : (s.loadRegs rs).fb = s.fb := by rw [State.loadRegs_eq]
@[simp] theorem State.loadRegs_mem (rs : List Reg) : (s.loadRegs rs).mem = s.mem := by rw [State.loadRegs_eq]
@[simp] theorem State.loadRegs_cfg (rs : List Reg) : (s.loadRegs rs).cfg = s.cfg := by rw [State.loadRegs_eq]
@[simp] theorem State.loadRegs_rndIn (rs : List Reg) : (s.loadRegs rs).rndIn = s.rndIn := by rw [State.loadRegs_eq]
@[simp] theorem State.loadRegs_draws (rs : List Reg) : (s.loadRegs rs).draws = s.draws := by rw [State.loadRegs_eq]
@[simp] theorem State.loadRegs_readByte (rs : List Reg) (k : Nat) : (s.loadRegs rs).readByte k = s.readByte k := by simp [State.readByte]

end

end Sys2Proof.Machine
end

