-- ==== Sys2Proof/Laws/Exec.lean ====
section
/-!
SUPPORT. What a handler can do, said once: it raises its one fault on the state it was given, or it completes, and then
`IR`, `FAULT`, the keys, the configuration and the random bytes are as before.
-/

namespace Sys2Proof.Machine

/-- The inversion of `exec`: a raise, or a completed handler that leaves everything no handler may touch. -/
theorem exec_next_cases {i : Instr} {s t : State} (h : exec i s = .next t) :
    (∃ f, t = s.raise f) ∨
    (t.ir = s.ir ∧ t.fault = s.fault ∧ t.key = s.key ∧ t.cfg = s.cfg ∧ t.rndIn = s.rndIn ∧ t.draws = s.draws) := by
  cases i <;>
    simp only [exec, execCls, execRet, execJp, execCall, execSeImm, execSneImm, execSeReg, execSneReg, execLdImm,
      execAddImm, execLdReg, execOr, execAnd, execXor, State.finishV, execAddReg, execSub, execSubn, execShr, execShl,
      execLdI, execJpV0, execRnd, execDrw, execSkp, execSknp, execLdVxDt, execLdVxK, execLdDtVx, execLdStVx, execAddIVx,
      execLdFVx, execLdBVx, execLdMemVx, execLdVxMem] at h <;>
    (try split at h) <;> injection h with h <;> subst h
  all_goals first
    | exact .inl ⟨_, rfl⟩
    | exact .inr (by simp)

/-- A handler that ends with `FAULT` at 0 has not raised. -/
theorem exec_next_of_no_fault {i : Instr} {s t : State} (h : exec i s = .next t) (ht : t.fault = 0) :
    t.ir = s.ir ∧ t.fault = s.fault ∧ t.key = s.key ∧ t.cfg = s.cfg ∧ t.rndIn = s.rndIn ∧ t.draws = s.draws := by
  rcases exec_next_cases h with ⟨f, rfl⟩ | h
  · exact absurd ht (Fault.code_ne_zero f)
  · exact h

end Sys2Proof.Machine
end

