-- ==== Sys2Proof/Laws/Cycle.lean ====
section
/-!
SUPPORT. What a step can do, said once (spec/40_step_cycle.md R65).
-/

namespace Sys2Proof.Machine

theorem State.fetch_eq_none {s : State} : s.fetch = none ↔ s.pc.toNat > 4094 := by
  unfold State.fetch; split <;> simp_all

theorem State.fetch_of_le {s : State} (h : s.pc.toNat ≤ 4094) :
    s.fetch = some (wordOfBytes (s.readByte s.pc.toNat) (s.readByte (s.pc.toNat + 1))) := by
  unfold State.fetch; rw [if_neg (by omega)]; rfl

theorem State.fetch_eq_some {s : State} {w : Word} (h : s.fetch = some w) :
    s.pc.toNat ≤ 4094 ∧ w = wordOfBytes (s.readByte s.pc.toNat) (s.readByte (s.pc.toNat + 1)) := by
  unfold State.fetch at h
  split at h
  · cases h
  · injection h with h
    exact ⟨by omega, h.symm⟩

/-- The inversion of a step: halted, a fetch fault, or a dispatched word and the end of the step. -/
theorem step_next_cases {s t : State} (h : step s = .next t) :
    (s.fault ≠ 0 ∧ t = s) ∨
    (s.fault = 0 ∧ s.pc.toNat > 4094 ∧ t = s.raise .fetchRange) ∨
    (s.fault = 0 ∧ ∃ w u, s.fetch = some w ∧ dispatch w s = .next u ∧ t = u.finishStep w) := by
  unfold step cycle at h
  split at h
  · rename_i hh
    injection h with h
    exact .inl ⟨(State.halted_iff s).mp hh, h.symm⟩
  · rename_i hh
    have h0 : s.fault = 0 := by
      by_contra hc
      exact hh ((State.halted_iff s).mpr hc)
    split at h
    · rename_i hf
      injection h with h
      exact .inr (.inl ⟨h0, State.fetch_eq_none.mp hf, h.symm⟩)
    · rename_i w hf
      split at h
      · rename_i u hu
        injection h with h
        exact .inr (.inr ⟨h0, w, u, hf, hu, h.symm⟩)
      · cases h
      · cases h

/-- A dispatched word ran an instruction, or is unrecognised and only `PC` has moved. -/
theorem dispatch_next_cases {w : Word} {s u : State} (h : dispatch w s = .next u) :
    (∃ i, decodeWord w = .instr i ∧ exec i s = .next u) ∨ ((∀ i, decodeWord w ≠ .instr i) ∧ u = s.advancePc) := by
  unfold dispatch at h
  split at h
  · rename_i i hi
    exact .inl ⟨i, hi, h⟩
  all_goals
    rename_i hd
    injection h with h
    exact .inr ⟨fun i hi => by simp [hd] at hi, h.symm⟩

/-- A step whose handler raised ends with what the handler left. -/
theorem State.finishStep_of_fault {t : State} (h : t.fault ≠ 0) (w : Word) : t.finishStep w = t := by
  unfold State.finishStep
  rw [if_pos ((State.halted_iff t).mpr h)]

/-- A completed step: the word in `IR`, the random byte spent, the timers ticked under `PER_STEP`. -/
theorem State.finishStep_of_ok {t : State} (h : t.fault = 0) (w : Word) :
    t.finishStep w = { t with
      ir := w, rndIn := t.rndIn.tail, draws := t.draws + 1,
      dt := if t.cfg.timerTick = .perStep then countDown t.dt else t.dt,
      st := if t.cfg.timerTick = .perStep then countDown t.st else t.st } := by
  have hh : ¬ t.halted = true := by rw [State.halted_iff]; exact fun hc => hc h
  unfold State.finishStep
  rw [if_neg hh]
  simp only [State.stepTick, State.spendRnd]
  cases t.cfg.timerTick <;> rfl

end Sys2Proof.Machine
end

