-- ==== Sys2Proof/Laws/Decode.lean ====
section
/-!
SUPPORT. The fields of a word and the words the encoder assembles, as numbers (spec/30_encoding.md R51).
-/

namespace Sys2Proof

/-! ### Fields of any word -/

section
variable (w : Word)

theorem fieldFam_toNat : (fieldFam w).toNat = w.toNat / 4096 := by
  simp only [fieldFam, BitVec.extractLsb'_toNat, Nat.shiftRight_eq_div_pow]
  have := w.isLt
  omega

theorem fieldX_val : (fieldX w).val = w.toNat / 256 % 16 := by
  simp only [fieldX, BitVec.val_toFin, BitVec.extractLsb'_toNat, Nat.shiftRight_eq_div_pow]

theorem fieldY_val : (fieldY w).val = w.toNat / 16 % 16 := by
  simp only [fieldY, BitVec.val_toFin, BitVec.extractLsb'_toNat, Nat.shiftRight_eq_div_pow]

theorem fieldN_val : (fieldN w).val = w.toNat % 16 := by
  simp only [fieldN, BitVec.val_toFin, BitVec.extractLsb'_toNat, Nat.shiftRight_zero]

theorem fieldNN_toNat : (fieldNN w).toNat = w.toNat % 256 := by
  simp only [fieldNN, BitVec.extractLsb'_toNat, Nat.shiftRight_zero]

theorem fieldNNN_toNat : (fieldNNN w).toNat = w.toNat % 4096 := by
  simp only [fieldNNN, BitVec.extractLsb'_toNat, Nat.shiftRight_zero]

end

/-! ### Assembled words -/

section
variable (fam : BitVec 4) (x y n : Fin 16) (nn : Byte) (nnn : Addr)

theorem append_toNat {a b : Nat} (u : BitVec a) (v : BitVec b) : (u ++ v).toNat = u.toNat * 2 ^ b + v.toNat := by
  rw [BitVec.toNat_append, ← Nat.shiftLeft_add_eq_or_of_lt v.isLt, Nat.shiftLeft_eq]

theorem wordXYN_toNat : (wordXYN fam x y n).toNat = fam.toNat * 4096 + x.val * 256 + y.val * 16 + n.val := by
  simp only [wordXYN, append_toNat, BitVec.toNat_ofFin]
  omega

theorem wordXNN_toNat : (wordXNN fam x nn).toNat = fam.toNat * 4096 + x.val * 256 + nn.toNat := by
  simp only [wordXNN, append_toNat, BitVec.toNat_ofFin]
  omega

theorem wordNNN_toNat : (wordNNN fam nnn).toNat = fam.toNat * 4096 + nnn.toNat := by
  simp only [wordNNN, append_toNat]
  omega

theorem fieldFam_wordXYN : fieldFam (wordXYN fam x y n) = fam :=
  BitVec.eq_of_toNat_eq (by rw [fieldFam_toNat, wordXYN_toNat]; omega)

theorem fieldX_wordXYN : fieldX (wordXYN fam x y n) = x := Fin.ext (by rw [fieldX_val, wordXYN_toNat]; omega)

theorem fieldY_wordXYN : fieldY (wordXYN fam x y n) = y := Fin.ext (by rw [fieldY_val, wordXYN_toNat]; omega)

theorem fieldN_wordXYN : fieldN (wordXYN fam x y n) = n := Fin.ext (by rw [fieldN_val, wordXYN_toNat]; omega)

theorem fieldFam_wordXNN : fieldFam (wordXNN fam x nn) = fam :=
  BitVec.eq_of_toNat_eq (by rw [fieldFam_toNat, wordXNN_toNat]; have := nn.isLt; omega)

theorem fieldX_wordXNN : fieldX (wordXNN fam x nn) = x :=
  Fin.ext (by rw [fieldX_val, wordXNN_toNat]; have := nn.isLt; omega)

theorem fieldNN_wordXNN : fieldNN (wordXNN fam x nn) = nn :=
  BitVec.eq_of_toNat_eq (by rw [fieldNN_toNat, wordXNN_toNat]; have := nn.isLt; omega)

theorem fieldFam_wordNNN : fieldFam (wordNNN fam nnn) = fam :=
  BitVec.eq_of_toNat_eq (by rw [fieldFam_toNat, wordNNN_toNat]; have := nnn.isLt; omega)

theorem fieldNNN_wordNNN : fieldNNN (wordNNN fam nnn) = nnn :=
  BitVec.eq_of_toNat_eq (by rw [fieldNNN_toNat, wordNNN_toNat]; have := nnn.isLt; omega)

end

/-! ### Words under the masks of the opcode table, as numbers -/

theorem and_F000_toNat (w : Word) : (w &&& 0xF000).toNat = w.toNat / 4096 * 4096 := by
  have hw := w.isLt
  rw [BitVec.toNat_and]
  apply Nat.eq_of_testBit_eq
  intro i
  rw [show w.toNat / 4096 * 4096 = (w.toNat >>> 12) <<< 12 by simp [Nat.shiftRight_eq_div_pow, Nat.shiftLeft_eq],
    Nat.testBit_and, Nat.testBit_shiftLeft, Nat.testBit_shiftRight]
  rcases Nat.lt_or_ge i 16 with hi | hi
  · have hm : (BitVec.toNat (0xF000 : Word)).testBit i = decide (12 ≤ i) := by
      revert i; decide
    rw [hm]
    by_cases h : 12 ≤ i
    · simp [h, show 12 + (i - 12) = i by omega]
    · simp [h]
  · have : w.toNat.testBit i = false :=
      Nat.testBit_lt_two_pow (Nat.lt_of_lt_of_le hw (Nat.pow_le_pow_right (by decide) hi))
    simp [this, show 12 + (i - 12) = i by omega]

theorem and_00FF_toNat (w : Word) : (w &&& 0x00FF).toNat = w.toNat % 256 := by
  rw [BitVec.toNat_and]; exact Nat.and_two_pow_sub_one_eq_mod w.toNat 8

theorem and_000F_toNat (w : Word) : (w &&& 0x000F).toNat = w.toNat % 16 := by
  rw [BitVec.toNat_and]; exact Nat.and_two_pow_sub_one_eq_mod w.toNat 4

/-- Two masks with no bit in common add up. -/
theorem and_disjoint_masks (w a b : Word) (h : a &&& b = 0) :
    (w &&& (a ||| b)).toNat = (w &&& a).toNat + (w &&& b).toNat := by
  have hd : (w &&& a) &&& (w &&& b) = 0 := by
    rw [show (w &&& a) &&& (w &&& b) = w &&& w &&& (a &&& b) by ac_rfl, h]; simp
  rw [BitVec.and_or_distrib_left, ← BitVec.add_eq_or_of_and_eq_zero _ _ hd, BitVec.toNat_add_of_and_eq_zero hd]

theorem and_F0FF_toNat (w : Word) : (w &&& 0xF0FF).toNat = w.toNat / 4096 * 4096 + w.toNat % 256 := by
  rw [show (0xF0FF : Word) = 0xF000 ||| 0x00FF by decide, and_disjoint_masks _ _ _ (by decide), and_F000_toNat,
    and_00FF_toNat]

theorem and_F00F_toNat (w : Word) : (w &&& 0xF00F).toNat = w.toNat / 4096 * 4096 + w.toNat % 16 := by
  rw [show (0xF00F : Word) = 0xF000 ||| 0x000F by decide, and_disjoint_masks _ _ _ (by decide), and_F000_toNat,
    and_000F_toNat]

/-! ### Bytes of a word (20_memory.md R36) -/

theorem highByte_toNat (w : Word) : (highByte w).toNat = w.toNat / 256 := by
  simp only [highByte, BitVec.extractLsb'_toNat, Nat.shiftRight_eq_div_pow]
  have := w.isLt
  omega

theorem lowByte_toNat (w : Word) : (lowByte w).toNat = w.toNat % 256 := by
  simp only [lowByte, BitVec.extractLsb'_toNat, Nat.shiftRight_zero]

theorem wordOfBytes_toNat (hi lo : Byte) : (wordOfBytes hi lo).toNat = hi.toNat * 256 + lo.toNat := append_toNat hi lo

/-- A word is its two bytes. -/
theorem wordOfBytes_bytes (w : Word) : wordOfBytes (highByte w) (lowByte w) = w :=
  BitVec.eq_of_toNat_eq (by rw [wordOfBytes_toNat, highByte_toNat, lowByte_toNat]; omega)

theorem highByte_wordOfBytes (hi lo : Byte) : highByte (wordOfBytes hi lo) = hi :=
  BitVec.eq_of_toNat_eq (by rw [highByte_toNat, wordOfBytes_toNat]; have := lo.isLt; omega)

theorem lowByte_wordOfBytes (hi lo : Byte) : lowByte (wordOfBytes hi lo) = lo :=
  BitVec.eq_of_toNat_eq (by rw [lowByte_toNat, wordOfBytes_toNat]; have := lo.isLt; omega)

end Sys2Proof
end

