-- ==== Sys2Proof/Laws/Display.lean ====
section
/-!
SUPPORT. Drawing, said once (spec/48_display.md R132): a sprite toggles each pixel its set bits fall on exactly once, and
reports a collision exactly when one of them was on. Both follow from reading the drawing as one list of positions.
-/

namespace Sys2Proof.Machine

/-- Toggle the pixels at a list of positions, in order. -/
def plot (e : DrawEdge) (ps : List (Nat × Nat)) (p : Canvas) : Canvas := ps.foldl (fun p q => drawPixel e q.1 q.2 p) p

/-- The positions at which a sprite has a set bit, with its top left corner in column `x` and row `y`. -/
def spritePoints (x y : Nat) : List Byte → List (Nat × Nat)
  | []      => []
  | b :: bs => (spriteColumns.filter (spriteBit b)).map (fun c => (x + c, y)) ++ spritePoints x (y + 1) bs

theorem drawRow_eq_plot (e : DrawEdge) (x y : Nat) (b : Byte) (p : Canvas) :
    drawRow e x y b p = plot e ((spriteColumns.filter (spriteBit b)).map (fun c => (x + c, y))) p := by
  simp [drawRow, plot, List.foldl_map, List.foldl_filter]

theorem drawSprite_eq_plot (e : DrawEdge) (x y : Nat) (rows : List Byte) (p : Canvas) :
    drawSprite e x y rows p = plot e (spritePoints x y rows) p := by
  induction rows generalizing y p with
  | nil => rfl
  | cons b bs ih => rw [drawSprite, ih, drawRow_eq_plot, spritePoints, plot, plot, plot, List.foldl_append]

theorem mem_spritePoints {x y : Nat} {rows : List Byte} {a : Nat × Nat} :
    a ∈ spritePoints x y rows ↔
      ∃ r, r < rows.length ∧ ∃ c, c < 8 ∧ (rows.getD r 0).getLsbD (7 - c) = true ∧ a = (x + c, y + r) := by
  induction rows generalizing y with
  | nil => simp [spritePoints]
  | cons b bs ih =>
    have hc : ∀ c, c ∈ spriteColumns ↔ c < 8 := by intro c; simp [spriteColumns]; omega
    simp only [spritePoints, List.mem_append, List.mem_map, List.mem_filter, hc, spriteBit, ih, List.length_cons]
    constructor
    · rintro (⟨c, ⟨h8, hb⟩, rfl⟩ | ⟨r, hr, c, h8, hb, rfl⟩)
      · exact ⟨0, by omega, c, h8, by simpa using hb, rfl⟩
      · exact ⟨r + 1, by omega, c, h8, by simpa using hb, by simp; omega⟩
    · rintro ⟨r, hr, c, h8, hb, rfl⟩
      cases r with
      | zero => exact .inl ⟨c, ⟨h8, by simpa using hb⟩, rfl⟩
      | succ r => exact .inr ⟨r, by omega, c, h8, by simpa using hb, by simp; omega⟩

/-- Two positions of one sprite that name the same pixel are the same position: a sprite is at most 8 wide and 32 high. -/
theorem coord_injective {e : DrawEdge} {x y c r c' r' : Nat} {q : Fin 64 × Fin 32} (hc : c < 8) (hc' : c' < 8)
    (hr : r < 32) (hr' : r' < 32) (h : coord e (x + c) (y + r) = some q) (h' : coord e (x + c') (y + r') = some q) :
    c = c' ∧ r = r' := by
  cases e
  · simp only [coord, Option.some.injEq] at h h'
    have h2 := h.trans h'.symm
    simp only [Prod.mk.injEq, Fin.mk.injEq] at h2
    omega
  · simp only [coord] at h h'
    split at h <;> split at h' <;> simp_all
    have h2 := h.trans h'.symm
    simp only [Prod.mk.injEq, Fin.mk.injEq] at h2
    omega

/-- No two positions of the list name one pixel. -/
def Apart (e : DrawEdge) (ps : List (Nat × Nat)) : Prop :=
  ps.Pairwise fun a b => ∀ q, coord e a.1 a.2 = some q → coord e b.1 b.2 ≠ some q

theorem spritePoints_apart (e : DrawEdge) (x y : Nat) (rows : List Byte) (h : rows.length ≤ 32) :
    Apart e (spritePoints x y rows) := by
  induction rows generalizing y with
  | nil => exact List.Pairwise.nil
  | cons b bs ih =>
    have hc : ∀ c ∈ spriteColumns, c < 8 := by decide
    simp only [List.length_cons] at h
    refine List.pairwise_append.mpr ⟨?_, ih _ (by omega), ?_⟩
    · rw [List.pairwise_map]
      refine List.Pairwise.imp_of_mem (R := fun a b => a < b) ?_ ((by decide : spriteColumns.Pairwise (· < ·)).filter _)
      intro c c' hm hm' hlt q hq hq'
      have := coord_injective (r := 0) (r' := 0) (hc _ (List.mem_filter.mp hm).1) (hc _ (List.mem_filter.mp hm').1)
        (by omega) (by omega) hq hq'
      omega
    · intro a ha d hd q hq hq'
      obtain ⟨c, hm, rfl⟩ := List.mem_map.mp ha
      obtain ⟨r, hr, c', hc8, _, rfl⟩ := mem_spritePoints.mp hd
      have := coord_injective (r := 0) (r' := r + 1) (hc _ (List.mem_filter.mp hm).1) hc8 (by omega) (by omega) hq
        (by simpa [Nat.add_assoc, Nat.add_comm 1 r] using hq')
      omega

theorem drawPixel_pixel (e : DrawEdge) (x y : Nat) (p : Canvas) (py : Fin 32) (px : Fin 64) :
    Framebuffer.pixel (drawPixel e x y p).1 py px =
      (Framebuffer.pixel p.1 py px ^^ decide (coord e x y = some (px, py))) := by
  unfold drawPixel
  cases h : coord e x y with
  | none => simp
  | some q =>
    obtain ⟨qx, qy⟩ := q
    simp only [Framebuffer.pixel_toggle, Option.some.injEq, Prod.mk.injEq, and_comm, eq_comm]

theorem drawPixel_collision (e : DrawEdge) (x y : Nat) (p : Canvas) :
    (drawPixel e x y p).2 = true ↔
      p.2 = true ∨ ∃ py px, coord e x y = some (px, py) ∧ Framebuffer.pixel p.1 py px = true := by
  unfold drawPixel
  cases h : coord e x y with
  | none => simp
  | some q =>
    obtain ⟨qx, qy⟩ := q
    constructor
    · intro hp
      rcases Bool.or_eq_true_iff.mp hp with hp | hp
      · exact .inl hp
      · exact .inr ⟨qy, qx, rfl, hp⟩
    · rintro (hp | ⟨py, px, hq, hp⟩)
      · simp [hp]
      · injection hq with hq; injection hq with hx hy; subst hx; subst hy; simp [hp]

/-- Plotting toggles exactly the pixels of its positions. -/
theorem plot_pixel {e : DrawEdge} {ps : List (Nat × Nat)} (h : Apart e ps) (p : Canvas) (py : Fin 32) (px : Fin 64) :
    Framebuffer.pixel (plot e ps p).1 py px =
      (Framebuffer.pixel p.1 py px ^^ decide (∃ a ∈ ps, coord e a.1 a.2 = some (px, py))) := by
  induction ps generalizing p with
  | nil => simp [plot]
  | cons a ps ih =>
    obtain ⟨ha, hps⟩ := List.pairwise_cons.mp h
    show Framebuffer.pixel (plot e ps (drawPixel e a.1 a.2 p)).1 py px = _
    rw [ih hps, drawPixel_pixel]
    by_cases hq : coord e a.1 a.2 = some (px, py)
    · have hn : ¬ ∃ b ∈ ps, coord e b.1 b.2 = some (px, py) := fun ⟨b, hb, hbq⟩ => ha b hb _ hq hbq
      simp only [List.mem_cons, exists_eq_or_imp, hq, hn, decide_true, decide_false, or_false, Bool.xor_false]
    · simp only [List.mem_cons, exists_eq_or_imp, hq, false_or, decide_false, Bool.xor_false]

/-- Plotting reports a collision exactly when one of its pixels was on. -/
theorem plot_collision {e : DrawEdge} {ps : List (Nat × Nat)} (h : Apart e ps) (p : Canvas) :
    (plot e ps p).2 = true ↔
      p.2 = true ∨ ∃ py px, (∃ a ∈ ps, coord e a.1 a.2 = some (px, py)) ∧ Framebuffer.pixel p.1 py px = true := by
  induction ps generalizing p with
  | nil => simp [plot]
  | cons a ps ih =>
    obtain ⟨ha, hps⟩ := List.pairwise_cons.mp h
    show (plot e ps (drawPixel e a.1 a.2 p)).2 = true ↔ _
    rw [ih hps, drawPixel_collision]
    have keep : ∀ py px, (∃ b ∈ ps, coord e b.1 b.2 = some (px, py)) →
        Framebuffer.pixel (drawPixel e a.1 a.2 p).1 py px = Framebuffer.pixel p.1 py px := by
      rintro py px ⟨b, hb, hbq⟩
      rw [drawPixel_pixel, decide_eq_false (fun hq => ha b hb _ hq hbq), Bool.xor_false]
    constructor
    · rintro ((hp | ⟨py, px, hq, hp⟩) | ⟨py, px, hb, hp⟩)
      · exact .inl hp
      · exact .inr ⟨py, px, ⟨a, by simp, hq⟩, hp⟩
      · rw [keep py px hb] at hp
        obtain ⟨b, hb, hbq⟩ := hb
        exact .inr ⟨py, px, ⟨b, by simp [hb], hbq⟩, hp⟩
    · rintro (hp | ⟨py, px, ⟨b, hb, hbq⟩, hp⟩)
      · exact .inl (.inl hp)
      · rcases List.mem_cons.mp hb with rfl | hb
        · exact .inl (.inr ⟨py, px, hbq, hp⟩)
        · exact .inr ⟨py, px, ⟨b, hb, hbq⟩, by rw [keep py px ⟨b, hb, hbq⟩]; exact hp⟩

end Sys2Proof.Machine
end

