-- ==== Sys2Proof/Laws/HostOps.lean ====
section
/-!
SUPPORT. What each host operation can do, said once (spec/10_state.md R29 to R32, 70_reset_and_hazards.md R180 to R184).
-/

namespace Sys2Proof.Machine

@[simp] theorem State.hostReset_eq (s : State) : s.hostReset = State.initial s.cfg := rfl

/-- `Step(rnd)` is a step with the one byte, after which the host's list is as before. -/
theorem stepWith_next_cases {r : Byte} {s t : State} (h : stepWith r s = .next t) :
    ∃ u, step { s with rndIn := [r] } = .next u ∧ t = { u with rndIn := s.rndIn } := by
  unfold stepWith at h
  split at h
  · rename_i u hu
    injection h with h
    exact ⟨u, hu, h.symm⟩
  all_goals cases h

/-- `Load` changes nothing, or memory alone, by one run of writes from the origin that stays inside memory. -/
theorem State.load_cases (s : State) (image : List Byte) :
    (image.length > 4096 - s.cfg.programOrigin.toNat ∧ s.load image = (.sizeExceeded, s)) ∨
    (image.length ≤ 4096 - s.cfg.programOrigin.toNat ∧
      s.load image = (.ok, s.writeBytes s.cfg.programOrigin.toNat image)) := by
  unfold State.load
  split
  · exact .inl ⟨‹_›, rfl⟩
  · exact .inr ⟨by omega, rfl⟩

/-- `TickTimers` changes nothing while halted, else the two timers. -/
theorem State.tickTimers_cases (s : State) :
    (s.fault ≠ 0 ∧ s.tickTimers = s) ∨ (s.fault = 0 ∧ s.tickTimers = s.tick) := by
  unfold State.tickTimers
  split
  · rename_i h
    exact .inl ⟨(State.halted_iff s).mp h, rfl⟩
  · rename_i h
    exact .inr ⟨by by_contra hc; exact h ((State.halted_iff s).mpr hc), rfl⟩

/-- The inversion of a host operation that answers a next state. -/
theorem hostOp_next_cases {o : HostOp} {s t : State} (h : hostOp o s = .next t) :
    (o = .reset ∧ t = State.initial s.cfg) ∨ (∃ image, o = .load image ∧ t = (s.load image).2) ∨
    (∃ r, o = .step r ∧ stepWith r s = .next t) ∨ (∃ k, o = .setKeys k ∧ t = { s with key := k }) ∨
    (o = .readOutputs ∧ t = s) ∨ (o = .tickTimers ∧ s.cfg.timerTick = .external ∧ t = s.tickTimers) := by
  cases o with
  | reset => injection h with h; exact .inl ⟨rfl, h.symm⟩
  | load image => injection h with h; exact .inr (.inl ⟨image, rfl, h.symm⟩)
  | step r => exact .inr (.inr (.inl ⟨r, rfl, h⟩))
  | setKeys k => injection h with h; exact .inr (.inr (.inr (.inl ⟨k, rfl, h.symm⟩)))
  | readOutputs => injection h with h; exact .inr (.inr (.inr (.inr (.inl ⟨rfl, h.symm⟩))))
  | tickTimers =>
    by_cases he : s.cfg.timerTick = .external
    · rw [hostOp, if_pos he] at h
      injection h with h
      exact .inr (.inr (.inr (.inr (.inr ⟨rfl, he, h.symm⟩))))
    · rw [hostOp, if_neg he] at h
      cases h

end Sys2Proof.Machine
end

