-- ==== Sys2Proof/Laws/PerInstr.lean ====
section
/-!
SUPPORT. Facts about every instruction as syntax, one lemma per constructor: the canonical word of an instruction belongs
to its own row of the opcode table (spec/30_encoding.md R53 to R59).
-/

namespace Sys2Proof.Laws.EncodesRow

/-- The instruction's canonical word matches the instruction's row of the table. -/
def Statement (i : Instr) : Prop := i.row.hits (encode i) = true

/-- A word of family `fam` and any address is in the row that tests the family alone. -/
theorem hits_nnn (fam : BitVec 4) (nnn : Addr) :
    OpcodeRow.hits ⟨0xF000, BitVec.ofNat 16 (fam.toNat * 4096)⟩ (wordNNN fam nnn) = true := by
  rw [OpcodeRow.hits, beq_iff_eq]
  apply BitVec.eq_of_toNat_eq
  have := nnn.isLt
  rw [and_F000_toNat, wordNNN_toNat, BitVec.toNat_ofNat]
  omega

/-- The same for the formats with a register and an immediate. -/
theorem hits_xnn (fam : BitVec 4) (x : Reg) (nn : Byte) :
    OpcodeRow.hits ⟨0xF000, BitVec.ofNat 16 (fam.toNat * 4096)⟩ (wordXNN fam x nn) = true := by
  rw [OpcodeRow.hits, beq_iff_eq]
  apply BitVec.eq_of_toNat_eq
  have := nn.isLt
  rw [and_F000_toNat, wordXNN_toNat, BitVec.toNat_ofNat]
  omega

/-- The same for the formats with two registers and a nibble. -/
theorem hits_xyn (fam : BitVec 4) (x y n : Fin 16) :
    OpcodeRow.hits ⟨0xF000, BitVec.ofNat 16 (fam.toNat * 4096)⟩ (wordXYN fam x y n) = true := by
  rw [OpcodeRow.hits, beq_iff_eq]
  apply BitVec.eq_of_toNat_eq
  rw [and_F000_toNat, wordXYN_toNat, BitVec.toNat_ofNat]
  omega

/-- A word with its low byte fixed is in the row that tests family and low byte. -/
theorem hits_low_byte (fam : BitVec 4) (x : Reg) (nn : Byte) :
    OpcodeRow.hits ⟨0xF0FF, BitVec.ofNat 16 (fam.toNat * 4096 + nn.toNat)⟩ (wordXNN fam x nn) = true := by
  rw [OpcodeRow.hits, beq_iff_eq]
  apply BitVec.eq_of_toNat_eq
  have := nn.isLt
  rw [and_F0FF_toNat, wordXNN_toNat, BitVec.toNat_ofNat]
  omega

/-- A word with its low nibble fixed is in the row that tests family and low nibble. -/
theorem hits_low_nibble (fam : BitVec 4) (x y n : Fin 16) :
    OpcodeRow.hits ⟨0xF00F, BitVec.ofNat 16 (fam.toNat * 4096 + n.val)⟩ (wordXYN fam x y n) = true := by
  rw [OpcodeRow.hits, beq_iff_eq]
  apply BitVec.eq_of_toNat_eq
  rw [and_F00F_toNat, wordXYN_toNat, BitVec.toNat_ofNat]
  omega

theorem cls : Statement (.cls) := hits_low_byte 0x0 0 0xE0
theorem ret : Statement (.ret) := hits_low_byte 0x0 0 0xEE
theorem jp (nnn : Addr) : Statement (.jp nnn) := hits_nnn 0x1 nnn
theorem call (nnn : Addr) : Statement (.call nnn) := hits_nnn 0x2 nnn
theorem seImm (x : Reg) (nn : Byte) : Statement (.seImm x nn) := hits_xnn 0x3 x nn
theorem sneImm (x : Reg) (nn : Byte) : Statement (.sneImm x nn) := hits_xnn 0x4 x nn
theorem seReg (x y : Reg) : Statement (.seReg x y) := hits_xyn 0x5 x y 0
theorem ldImm (x : Reg) (nn : Byte) : Statement (.ldImm x nn) := hits_xnn 0x6 x nn
theorem addImm (x : Reg) (nn : Byte) : Statement (.addImm x nn) := hits_xnn 0x7 x nn
theorem ldReg (x y : Reg) : Statement (.ldReg x y) := hits_low_nibble 0x8 x y 0x0
theorem orReg (x y : Reg) : Statement (.orReg x y) := hits_low_nibble 0x8 x y 0x1
theorem andReg (x y : Reg) : Statement (.andReg x y) := hits_low_nibble 0x8 x y 0x2
theorem xorReg (x y : Reg) : Statement (.xorReg x y) := hits_low_nibble 0x8 x y 0x3
theorem addReg (x y : Reg) : Statement (.addReg x y) := hits_low_nibble 0x8 x y 0x4
theorem sub (x y : Reg) : Statement (.sub x y) := hits_low_nibble 0x8 x y 0x5
theorem shr (x y : Reg) : Statement (.shr x y) := hits_low_nibble 0x8 x y 0x6
theorem subn (x y : Reg) : Statement (.subn x y) := hits_low_nibble 0x8 x y 0x7
theorem shl (x y : Reg) : Statement (.shl x y) := hits_low_nibble 0x8 x y 0xE
theorem sneReg (x y : Reg) : Statement (.sneReg x y) := hits_xyn 0x9 x y 0
theorem ldI (nnn : Addr) : Statement (.ldI nnn) := hits_nnn 0xA nnn
theorem jpV0 (nnn : Addr) : Statement (.jpV0 nnn) := hits_nnn 0xB nnn
theorem rnd (x : Reg) (nn : Byte) : Statement (.rnd x nn) := hits_xnn 0xC x nn
theorem drw (x y : Reg) (n : Fin 16) : Statement (.drw x y n) := hits_xyn 0xD x y n
theorem skp (x : Reg) : Statement (.skp x) := hits_low_byte 0xE x 0x9E
theorem sknp (x : Reg) : Statement (.sknp x) := hits_low_byte 0xE x 0xA1
theorem ldVxDt (x : Reg) : Statement (.ldVxDt x) := hits_low_byte 0xF x 0x07
theorem ldVxK (x : Reg) : Statement (.ldVxK x) := hits_low_byte 0xF x 0x0A
theorem ldDtVx (x : Reg) : Statement (.ldDtVx x) := hits_low_byte 0xF x 0x15
theorem ldStVx (x : Reg) : Statement (.ldStVx x) := hits_low_byte 0xF x 0x18
theorem addIVx (x : Reg) : Statement (.addIVx x) := hits_low_byte 0xF x 0x1E
theorem ldFVx (x : Reg) : Statement (.ldFVx x) := hits_low_byte 0xF x 0x29
theorem ldBVx (x : Reg) : Statement (.ldBVx x) := hits_low_byte 0xF x 0x33
theorem ldMemVx (x : Reg) : Statement (.ldMemVx x) := hits_low_byte 0xF x 0x55
theorem ldVxMem (x : Reg) : Statement (.ldVxMem x) := hits_low_byte 0xF x 0x65

end Sys2Proof.Laws.EncodesRow
end

