-- ==== Sys2Proof/Tests/Slice0.lean ====
section
/-!
SUPPORT. Tests: ill-formed configurations refused, one decoding per constructor from a word written out from the spec's
encoding (30_encoding.md R53 to R57, or a vector of 95_test_vectors.md), single steps against the vectors of
95_test_vectors.md (each test names its vector), and a witness for the hypotheses of every statement.
-/

namespace Sys2Proof.Tests

open Sys2Proof Sys2Proof.Machine

/-! ### Helpers -/

/-- The outcome is a next state that passes. -/
def passes (o : Host.Outcome State Fault Refusal) (p : State → Bool) : Bool :=
  match o with
  | .next t    => p t
  | .fault _   => false
  | .refused _ => false

/-- The reset state with a word at its `PC`, then changed. -/
def setup (w : Word) (change : State → State) : State := change (State.reset.withFetchWord 16 w.toNat)

/-- One step of that state passes. -/
def steps (w : Word) (change : State → State) (p : State → Bool) : Bool := passes (step (setup w change)) p

/-- The step faults with this code and changes nothing else. -/
def faults (w : Word) (change : State → State) (code : Byte) : Bool :=
  steps w change fun t => t == { setup w change with fault := code }

/-- A state with other parameters. -/
def withCfg (f : Config → Config) (s : State) : State := { s with cfg := f s.cfg }

/-! ### Well-formedness: each check refuses an ill-formed configuration (00_scope.md R5) -/

theorem test_wf_default : Config.default.wf = true := by decide

theorem test_wf_refuses_odd_origin :
    ({ Config.default with programOrigin := 0x201 } : Config).originEven = false ∧
    ({ Config.default with programOrigin := 0x201 } : Config).wf = false := by decide

theorem test_wf_refuses_origin_past_4094 :
    ({ Config.default with programOrigin := 0x1000 } : Config).originInMemory = false ∧
    ({ Config.default with programOrigin := 0x1000 } : Config).wf = false ∧
    ({ Config.default with programOrigin := 0xFFE } : Config).wf = true := by decide

theorem test_wf_refuses_font_past_memory :
    ({ Config.default with fontBase := 4017 } : Config).fontInMemory = false ∧
    ({ Config.default with fontBase := 4017 } : Config).wf = false ∧
    ({ Config.default with fontBase := 4016 } : Config).wf = true := by decide

/-- The syntax has no ill-formed instruction: a word outside the table is refused by the decoder instead, by name. -/
theorem test_wf_ill_formed_word_is_refused_by_name :
    decodeWord 0x8128 = .unrecognised 0x8128 ∧ decodeTableWord 16 0x8128 = none := by decide

/-! ### Decoding, one word per constructor -/

theorem test_decode_cls : decodeTableWord 16 0x00E0 = some .cls := by decide
theorem test_decode_ret : decodeTableWord 16 0x00EE = some .ret := by decide
theorem test_decode_jp : decodeTableWord 16 0x1ABC = some (.jp 0xABC) := by decide
theorem test_decode_call : decodeTableWord 16 0x2456 = some (.call 0x456) := by decide
theorem test_decode_seImm : decodeTableWord 16 0x3A42 = some (.seImm 0xA 0x42) := by decide
theorem test_decode_sneImm : decodeTableWord 16 0x4B17 = some (.sneImm 0xB 0x17) := by decide
theorem test_decode_seReg : decodeTableWord 16 0x512F = some (.seReg 1 2) := by decide
theorem test_decode_ldImm : decodeTableWord 16 0x6A2B = some (.ldImm 0xA 0x2B) := by decide
theorem test_decode_addImm : decodeTableWord 16 0x7C02 = some (.addImm 0xC 2) := by decide
theorem test_decode_ldReg : decodeTableWord 16 0x8AB0 = some (.ldReg 0xA 0xB) := by decide
theorem test_decode_orReg : decodeTableWord 16 0x8AB1 = some (.orReg 0xA 0xB) := by decide
theorem test_decode_andReg : decodeTableWord 16 0x8AB2 = some (.andReg 0xA 0xB) := by decide
theorem test_decode_xorReg : decodeTableWord 16 0x8AB3 = some (.xorReg 0xA 0xB) := by decide
theorem test_decode_addReg : decodeTableWord 16 0x8124 = some (.addReg 1 2) := by decide
theorem test_decode_sub : decodeTableWord 16 0x8125 = some (.sub 1 2) := by decide
theorem test_decode_shr : decodeTableWord 16 0x8126 = some (.shr 1 2) := by decide
theorem test_decode_subn : decodeTableWord 16 0x8127 = some (.subn 1 2) := by decide
theorem test_decode_shl : decodeTableWord 16 0x812E = some (.shl 1 2) := by decide
theorem test_decode_sneReg : decodeTableWord 16 0x9120 = some (.sneReg 1 2) := by decide
theorem test_decode_ldI : decodeTableWord 16 0xAFFF = some (.ldI 0xFFF) := by decide
theorem test_decode_jpV0 : decodeTableWord 16 0xB300 = some (.jpV0 0x300) := by decide
theorem test_decode_rnd : decodeTableWord 16 0xC30F = some (.rnd 3 0x0F) := by decide
theorem test_decode_drw : decodeTableWord 16 0xD125 = some (.drw 1 2 5) := by decide
theorem test_decode_skp : decodeTableWord 16 0xE49E = some (.skp 4) := by decide
theorem test_decode_sknp : decodeTableWord 16 0xE4A1 = some (.sknp 4) := by decide
theorem test_decode_ldVxDt : decodeTableWord 16 0xF207 = some (.ldVxDt 2) := by decide
theorem test_decode_ldVxK : decodeTableWord 16 0xF10A = some (.ldVxK 1) := by decide
theorem test_decode_ldDtVx : decodeTableWord 16 0xF315 = some (.ldDtVx 3) := by decide
theorem test_decode_ldStVx : decodeTableWord 16 0xF518 = some (.ldStVx 5) := by decide
theorem test_decode_addIVx : decodeTableWord 16 0xF31E = some (.addIVx 3) := by decide
theorem test_decode_ldFVx : decodeTableWord 16 0xF329 = some (.ldFVx 3) := by decide
theorem test_decode_ldBVx : decodeTableWord 16 0xF533 = some (.ldBVx 5) := by decide
theorem test_decode_ldMemVx : decodeTableWord 16 0xF255 = some (.ldMemVx 2) := by decide
theorem test_decode_ldVxMem : decodeTableWord 16 0xF265 = some (.ldVxMem 2) := by decide

/-! ### Single steps, from the vectors of 95_test_vectors.md -/

/-- K1. -/
theorem test_unrecognised :
    steps 0x0000 (fun s => (s.setDt 1).setSt 2)
      (fun t => t.pc == 0x202 && t.dt == 0 && t.st == 1 && t.ir == 0) = true := by decide

/-- K2. -/
theorem test_unrecognised_external :
    steps 0x0000 (fun s => withCfg (fun c => { c with timerTick := .external }) ((s.setDt 1).setSt 2))
      (fun t => t.pc == 0x202 && t.dt == 1 && t.st == 2) = true := by decide

/-- K12 (second step). -/
theorem test_fetch_past_memory : faults 0x0000 (fun s => s.setPc 0xFFF) 3 = true := by decide

/-- K14 (second step). -/
theorem test_fetch_at_odd_address :
    steps 0x0000 (fun s => (s.setPc 0x203).writeBytes 0x203 [0x6A, 0x55])
      (fun t => t.getV 0xA == 0x55 && t.pc == 0x205 && t.ir == 0x6A55) = true := by decide

/-- the halted machine after K10. -/
theorem test_halted :
    steps 0x6001 (fun s => { s.setSt 5 with fault := 3 })
      (fun t => t.st == 5 && t.pc == 0x200 && t.fault == 3) = true := by decide

/-- CLS after a draw, VF unchanged (D19). -/
theorem test_cls :
    steps 0x00E0 (fun s => ((s.setFb (Vector.replicate 32 0xFF)).setV 15 1))
      (fun t => t.fb == Framebuffer.dark && t.getV 15 == 1 && t.pc == 0x202) = true := by decide

/-- B8 (alias). -/
theorem test_ret :
    steps 0x0AEE (fun s => { s with sp := 2, stack := (s.stack.set 0 0xABC).set 1 0x206 })
      (fun t => t.sp == 1 && t.pc == 0x206) = true := by decide

/-- B9. -/
theorem test_ret_empty : faults 0x00EE (fun s => s) 2 = true := by decide

/-- B2. -/
theorem test_jp : steps 0x1ABD (fun s => s) (fun t => t.pc == 0xABD) = true := by decide

/-- B5. -/
theorem test_call :
    steps 0x2456 (fun s => { s with sp := 15 })
      (fun t => t.stack[15] == 0x202 && t.sp == 16 && t.pc == 0x456) = true := by decide

/-- B6. -/
theorem test_call_full : faults 0x2456 (fun s => { s with sp := 16 }) 1 = true := by decide

/-- B10. -/
theorem test_se_imm : steps 0x3A42 (fun s => s.setV 0xA 0x42) (fun t => t.pc == 0x204) = true := by decide

/-- B11. -/
theorem test_se_imm_not : steps 0x3A42 (fun s => s.setV 0xA 0x41) (fun t => t.pc == 0x202) = true := by decide

/-- B13. -/
theorem test_sne_imm : steps 0x4A42 (fun s => s.setV 0xA 0x41) (fun t => t.pc == 0x204) = true := by decide

/-- B12. -/
theorem test_sne_imm_not : steps 0x4A42 (fun s => s.setV 0xA 0x42) (fun t => t.pc == 0x202) = true := by decide

/-- B16. -/
theorem test_se_reg : steps 0x512F (fun s => (s.setV 1 7).setV 2 7) (fun t => t.pc == 0x204) = true := by decide

/-- B15. -/
theorem test_se_reg_not : steps 0x5120 (fun s => (s.setV 1 7).setV 2 8) (fun t => t.pc == 0x202) = true := by decide

/-- B18. -/
theorem test_sne_reg : steps 0x9120 (fun s => (s.setV 1 7).setV 2 8) (fun t => t.pc == 0x204) = true := by decide

/-- B19. -/
theorem test_sne_reg_not : steps 0x9120 (fun s => (s.setV 1 7).setV 2 7) (fun t => t.pc == 0x202) = true := by decide

/-- B21. -/
theorem test_jp_v0 : steps 0xBFFF (fun s => s.setV 0 0xFF) (fun t => t.pc == 0x10FE) = true := by decide

/-- A2. -/
theorem test_ld_imm : steps 0x6F7F (fun s => s) (fun t => t.getV 15 == 0x7F && t.pc == 0x202) = true := by decide

/-- A3. -/
theorem test_add_imm :
    steps 0x7C02 (fun s => s.setV 0xC 0xFF) (fun t => t.getV 0xC == 1 && t.getV 15 == 0) = true := by decide

/-- A6. -/
theorem test_ld_reg :
    steps 0x8AB0 (fun s => (s.setV 0xA 1).setV 0xB 0x99)
      (fun t => t.getV 0xA == 0x99 && t.getV 0xB == 0x99) = true := by decide

/-- A7. -/
theorem test_or :
    steps 0x8AB1 (fun s => ((s.setV 0xA 0x0F).setV 0xB 0xF0).setV 15 1)
      (fun t => t.getV 0xA == 0xFF && t.getV 15 == 1) = true := by decide

/-- A8. -/
theorem test_and :
    steps 0x8AB2 (fun s => ((s.setV 0xA 0x3C).setV 0xB 0x0F).setV 15 1)
      (fun t => t.getV 0xA == 0x0C && t.getV 15 == 1) = true := by decide

/-- A9. -/
theorem test_xor :
    steps 0x8AB3 (fun s => ((s.setV 0xA 0xFF).setV 0xB 0x0F).setV 15 1)
      (fun t => t.getV 0xA == 0xF0 && t.getV 15 == 1) = true := by decide

/-- F2. -/
theorem test_add_reg :
    steps 0x8124 (fun s => ((s.setV 1 0xFE).setV 2 1).setV 15 1)
      (fun t => t.getV 1 == 0xFF && t.getV 15 == 0) = true := by decide

/-- F4. -/
theorem test_add_reg_vf :
    steps 0x8F24 (fun s => (s.setV 15 0xFF).setV 2 2) (fun t => t.getV 15 == 1) = true := by decide

/-- F9. -/
theorem test_sub :
    steps 0x8125 (fun s => ((s.setV 1 3).setV 2 5).setV 15 1)
      (fun t => t.getV 1 == 0xFE && t.getV 15 == 0) = true := by decide

/-- F8. -/
theorem test_sub_equal :
    steps 0x8125 (fun s => (s.setV 1 5).setV 2 5) (fun t => t.getV 1 == 0 && t.getV 15 == 1) = true := by decide

/-- F11. -/
theorem test_subn :
    steps 0x8127 (fun s => (s.setV 1 3).setV 2 5) (fun t => t.getV 1 == 2 && t.getV 15 == 1) = true := by decide

/-- F14. -/
theorem test_subn_vf_source :
    steps 0x81F7 (fun s => s.setV 1 1) (fun t => t.getV 1 == 0xFF && t.getV 15 == 0) = true := by decide

/-- H1. -/
theorem test_shr :
    steps 0x8126 (fun s => (s.setV 1 5).setV 2 0x82) (fun t => t.getV 1 == 2 && t.getV 15 == 1) = true := by decide

/-- H6, SHIFT_SOURCE = VY. -/
theorem test_shr_vy :
    steps 0x8F26 (fun s => withCfg (fun c => { c with shiftSource := .vy }) ((s.setV 15 3).setV 2 6))
      (fun t => t.getV 15 == 3) = true := by decide

/-- H4. -/
theorem test_shl :
    steps 0x812E (fun s => ((s.setV 1 0x7F).setV 2 0xC0).setV 15 1)
      (fun t => t.getV 1 == 0xFE && t.getV 15 == 0) = true := by decide

/-- H4, SHIFT_SOURCE = VY. -/
theorem test_shl_vy :
    steps 0x812E (fun s => withCfg (fun c => { c with shiftSource := .vy }) ((s.setV 1 0x7F).setV 2 0xC0))
      (fun t => t.getV 1 == 0x80 && t.getV 15 == 1) = true := by decide

/-- M1. -/
theorem test_ld_i : steps 0xAFFF (fun s => s) (fun t => t.i == 0xFFF) = true := by decide

/-- M2b. -/
theorem test_add_i :
    steps 0xF31E (fun s => (s.setV 3 2).setI 0xFFFF) (fun t => t.i == 1 && t.fault == 0) = true := by decide

/-- M4. -/
theorem test_ld_f : steps 0xF329 (fun s => s.setV 3 0xFA) (fun t => t.i == 0x82) = true := by decide

/-- M7b. -/
theorem test_ld_b :
    steps 0xF533 (fun s => (s.setV 5 123).setI 0xFFD)
      (fun t => t.readBytes 0xFFD 3 == [1, 2, 3] && t.i == 0xFFD) = true := by decide

/-- M8. -/
theorem test_ld_b_past_memory : faults 0xF533 (fun s => (s.setV 5 123).setI 0xFFE) 4 = true := by decide

/-- M9. -/
theorem test_bulk_store :
    steps 0xF255 (fun s => ((((s.setV 0 0x11).setV 1 0x22).setV 2 0x33).setV 3 0x44).setI 0x400)
      (fun t => t.readBytes 0x400 4 == [0x11, 0x22, 0x33, 0] && t.i == 0x400) = true := by decide

/-- M11c. -/
theorem test_bulk_store_past_memory : faults 0xFF55 (fun s => s.setI 0xFF1) 4 = true := by decide

/-- M12. -/
theorem test_bulk_load :
    steps 0xF265 (fun s => ((s.setV 3 0x77).setI 0x400).writeBytes 0x400 [0xA, 0xB, 0xC, 0xD])
      (fun t => t.getV 0 == 0xA && t.getV 1 == 0xB && t.getV 2 == 0xC && t.getV 3 == 0x77) = true := by decide

/-- M14. -/
theorem test_bulk_load_past_memory : faults 0xF065 (fun s => (s.setI 0x1000).setV 0 5) 4 = true := by decide

/-- Z1. -/
theorem test_rnd : passes (stepWith 0xA7 (setup 0xC30F id)) (fun t => t.getV 3 == 0x07) = true := by decide

/-- Z4. -/
theorem test_rnd_vf : passes (stepWith 0xA7 (setup 0xCF0F id)) (fun t => t.getV 15 == 0x07) = true := by decide

/-- I1. -/
theorem test_skp : steps 0xE09E (fun s => (s.setV 0 5).setKeys 0x20) (fun t => t.pc == 0x204) = true := by decide

/-- I5. -/
theorem test_skp_out_of_range : faults 0xE09E (fun s => (s.setV 0 16).setKeys 1) 5 = true := by decide

/-- I3. -/
theorem test_sknp : steps 0xE0A1 (fun s => (s.setV 0 5).setKeys 0x20) (fun t => t.pc == 0x202) = true := by decide

/-- I4. -/
theorem test_sknp_up : steps 0xE0A1 (fun s => s.setV 0 5) (fun t => t.pc == 0x204) = true := by decide

/-- I8. -/
theorem test_key_wait :
    steps 0xF30A (fun s => ((s.setV 3 9).setDt 3).setSt 1)
      (fun t => t.pc == 0x200 && t.getV 3 == 9 && t.dt == 2 && t.st == 0) = true := by decide

/-- I11. -/
theorem test_key_found :
    steps 0xF30A (fun s => (s.setV 3 9).setKeys 0x814) (fun t => t.getV 3 == 2 && t.pc == 0x202) = true := by decide

/-- the second draw of the partial overlap. -/
theorem test_drw :
    steps 0xD231 (fun s => ((((s.setI 0x300).writeBytes 0x300 [0xF0]).setV 2 2).setFb (Framebuffer.dark.set 0 0x0F)))
      (fun t => t.fb == Framebuffer.dark.set 0 0x33 && t.getV 15 == 1) = true := by decide

/-- G5. -/
theorem test_drw_wraps :
    steps 0xD011 (fun s => ((((s.setI 0x300).writeBytes 0x300 [0xC0]).setV 0 0xFF).setV 1 0xFF))
      (fun t => t.fb == Framebuffer.dark.set 31 0x8000000000000001 && t.getV 15 == 0) = true := by decide

/-- T1. -/
theorem test_ld_vx_dt : steps 0xF007 (fun s => s.setDt 42) (fun t => t.getV 0 == 42 && t.dt == 41) = true := by decide

/-- T3. -/
theorem test_ld_dt : steps 0xF015 (fun s => s.setV 0 16) (fun t => t.dt == 15) = true := by decide

/-- T6. -/
theorem test_ld_st :
    steps 0xF018 (fun s => (s.setV 0 0xFF).setDt 1) (fun t => t.st == 254 && t.dt == 0) = true := by decide

/-- L3, on a machine whose program region is 2 bytes. -/
theorem test_load_oversize :
    (State.initial { Config.default with programOrigin := 0xFFE }).load [1, 2, 3] = (.sizeExceeded, State.initial { Config.default with programOrigin := 0xFFE }) := by decide

/-- L5. -/
theorem test_load :
    (State.reset.load [0xAA, 0xBB, 0xCC]).1 = .ok ∧ (State.reset.load [0xAA, 0xBB, 0xCC]).2.readBytes 0x1FF 5 = [0, 0xAA, 0xBB, 0xCC, 0] := by decide

/-- the font bytes after reset. -/
theorem test_font_after_reset :
    State.reset.readBytes 0x04F 6 = [0x00, 0xF0, 0x90, 0x90, 0x90, 0xF0] ∧ State.reset.readBytes 0x09B 6 = [0xF0, 0x80, 0xF0, 0x80, 0x80, 0x00] := by decide

/-- P6, the first step. -/
theorem test_core_step :
    passes (core.step core.reset) (fun t => t.pc == 0x202 && t.ir == 0 && t.fault == 0) = true := by decide

/-! ### Witnesses: for every statement with hypotheses, a state and operands that meet them all, clause by clause -/

/-- The reset state with `PC`, two bytes there, and nothing else changed. -/
def atPc (pc : Word) (w : Word) : State := (State.reset.setPc pc).writeBytes pc.toNat [highByte w, lowByte w]

/-- Not halted, `PC` in memory, and the word at `PC` decodes to the instruction. -/
def fetches (s : State) (i : Instr) : Bool :=
  s.fault == 0 && decide (s.pc.toNat ≤ 4094) &&
    decodeWord (wordOfBytes (s.readByte s.pc.toNat) (s.readByte (s.pc.toNat + 1))) == .instr i

theorem witness_DecodeOfEncodeGivesTheInstruction : (Instr.drw 15 15 15).wf = true ∧ Instr.cls.wf = true := by decide

theorem witness_EncodeOfDecodeClearsOnlyIgnoredBits :
    decodeWord 0x0FE0 = .instr .cls ∧ decodeWord 0x9FFF = .instr (.sneReg 15 15) ∧
    decodeWord 0xFF65 = .instr (.ldVxMem 15) := by decide

theorem witness_UnrecognisedWordsAreExactlyThoseListed_both_sides :
    decodeWord 0x0000 = .unrecognised 0x0000 ∧ decodeWord 0x800F = .unrecognised 0x800F ∧
    decodeWord 0xEFFF = .unrecognised 0xEFFF ∧ decodeWord 0xFFFF = .unrecognised 0xFFFF ∧
    decodeWord 0x800E = .instr (.shl 0 0) := by decide

theorem witness_EveryWordMatchesOnlyTheRowItDecodesTo :
    (⟨0xF0FF, 0x00E0⟩ : OpcodeRow) ∈ opcodeTable ∧ OpcodeRow.hits ⟨0xF0FF, 0x00E0⟩ 0x0FE0 = true ∧
    decodeWord 0x0FE0 = .instr .cls ∧
    (⟨0xF0FF, 0xF065⟩ : OpcodeRow) ∈ opcodeTable ∧ OpcodeRow.hits ⟨0xF0FF, 0xF065⟩ 0xFF65 = true := by decide

theorem witness_SampleWordsDecodeAsListed : decodeWord 0x00E0 = .instr .cls := by decide

/-- The last fetchable address, an instruction that completes. -/
theorem witness_StepRunsTheDecodedInstruction_completes :
    let s := atPc 0xFFE 0x6001
    s.fault = 0 ∧ s.pc.toNat ≤ 4094 ∧
    decodeBytes [s.readByte s.pc.toNat, s.readByte (s.pc.toNat + 1)] = (.instr (.ldImm 0 1), []) ∧
    (Instr.ldImm 0 1).wf = true ∧ passes (exec (.ldImm 0 1) s) (fun t => t.fault == 0) = true := by decide

/-- An instruction that raises a fault. -/
theorem witness_StepRunsTheDecodedInstruction_faults :
    let s := atPc 0x200 0x00EE
    s.fault = 0 ∧ s.pc.toNat ≤ 4094 ∧
    decodeBytes [s.readByte s.pc.toNat, s.readByte (s.pc.toNat + 1)] = (.instr .ret, []) ∧
    Instr.ret.wf = true ∧ passes (exec .ret s) (fun t => t.fault != 0) = true := by decide

theorem witness_UnrecognisedWordOnlyAdvancesAndTicks :
    let s := atPc 0xFFE 0xF0FF
    s.fault = 0 ∧ s.pc.toNat ≤ 4094 ∧
    (0xF0FF : Word) = wordOfBytes (s.readByte s.pc.toNat) (s.readByte (s.pc.toNat + 1)) ∧
    decodeWord 0xF0FF = .unrecognised 0xF0FF := by decide

theorem witness_HaltedStepChangesNothing : (State.reset.raise .keyRange).fault ≠ 0 := by decide

/-- Both sides of the range of `PC`, at its ends, and a completed step. -/
theorem witness_FetchReadsTheBigEndianWordAtPc :
    (State.reset.setPc 4094).fault = 0 ∧ (State.reset.setPc 4094).pc.toNat ≤ 4094 ∧
    (State.reset.setPc 4095).fault = 0 ∧ (State.reset.setPc 4095).pc.toNat > 4094 ∧
    passes (step (State.reset.setPc 4094)) (fun t => t.fault == 0) = true := by decide

theorem witness_AFaultingStepChangesOnlyFault :
    State.reset.fault = 0 ∧ passes (step (atPc 0x200 0x00EE)) (fun t => t.fault != 0) = true := by decide

/-- Every faulting clause at the two sides of its boundary. -/
theorem witness_FaultsArisePreciselyOnTheirConditions :
    let r := State.reset
    let code := fun (i : Instr) (s : State) (c : Byte) => passes (exec i s) (fun t => s.fault == 0 && t.fault == c)
    code (.call 0) { r with sp := 16 } 1 = true ∧ code (.call 0) { r with sp := 15 } 0 = true ∧
    code .ret r 2 = true ∧ code .ret { r with sp := 1 } 0 = true ∧
    code (.drw 0 1 2) (r.setI 0xFFF) 4 = true ∧ code (.drw 0 1 1) (r.setI 0xFFF) 0 = true ∧
    code (.drw 0 1 0) (r.setI 0xFFFF) 0 = true ∧
    code (.ldBVx 0) (r.setI 0xFFE) 4 = true ∧ code (.ldBVx 0) (r.setI 0xFFD) 0 = true ∧
    code (.ldMemVx 15) (r.setI 0xFF1) 4 = true ∧ code (.ldMemVx 15) (r.setI 0xFF0) 0 = true ∧
    code (.ldVxMem 15) (r.setI 0xFF1) 4 = true ∧ code (.ldVxMem 15) (r.setI 0xFF0) 0 = true ∧
    code (.skp 0) (r.setV 0 16) 5 = true ∧ code (.skp 0) (r.setV 0 15) 0 = true ∧
    code (.sknp 0) (r.setV 0 16) 5 = true ∧ code (.sknp 0) (r.setV 0 15) 0 = true ∧ code .cls r 0 = true := by decide

theorem witness_ProgramCounterAfterEachInstruction :
    State.reset.fault = 0 ∧ passes (exec .ret State.reset) (fun t => t.fault != 0) = true ∧
    passes (exec (.seImm 0 0) State.reset) (fun t => t.fault == 0 && t.pc == 0x204) = true ∧
    passes (exec (.ldVxK 0) State.reset) (fun t => t.fault == 0 && t.pc == 0x200) = true ∧
    passes (exec (.ldVxK 0) (State.reset.setKeys 0x8000)) (fun t => t.fault == 0 && t.pc == 0x202) = true ∧
    passes (exec .ret { State.reset with sp := 16 }) (fun t => t.fault == 0 && t.pc == 0) = true := by decide

/-- The reset state meets the invariant of R33. -/
theorem reset_meets_StateInv : StateInv State.reset where
  cfgWf    := by decide
  memWf    := by decide
  pcMax    := by decide
  stackMax := by decide
  faultMax := by decide

theorem witness_EveryStepKeepsTheStateInvariant :
    StateInv State.reset ∧ passes (step State.reset) (fun _ => true) = true := ⟨reset_meets_StateInv, by decide⟩

/-- Both ends of the range of `PROGRAM_ORIGIN` and the top of the range of `FONT_BASE`. -/
theorem witness_ResetMeetsTheStateInvariant :
    ({ Config.default with programOrigin := 0 } : Config).wf = true ∧
    ({ Config.default with programOrigin := 0xFFE, fontBase := 4016 } : Config).wf = true := by decide

theorem witness_ReachableStatesMeetTheInvariant : Reachable (State.reset.setKeys 0xFFFF) :=
  .op (.setKeys 0xFFFF) (.start Config.default (by decide)) rfl

theorem witness_RegistersChangeOnlyWhereTheyAreDestinations :
    passes (exec (.addReg 1 2) State.reset) (fun _ => true) = true ∧
    passes (exec (.ldVxMem 15) (State.reset.setI 0xFF0)) (fun t => t.getV 15 == 0) = true := by decide

theorem witness_OnlyTheTwoStoresChangeMemory :
    passes (exec (.ldVxMem 3) State.reset) (fun _ => true) = true ∧
    ∀ x, Instr.ldVxMem 3 ≠ .ldBVx x ∧ Instr.ldVxMem 3 ≠ .ldMemVx x := by decide

theorem witness_OnlyCallAndReturnTouchTheCallStack :
    ({ State.reset with sp := 15 } : State).sp.val < 16 ∧ 0 < ({ State.reset with sp := 1 } : State).sp.val ∧
    passes (exec (.call 0) { State.reset with sp := 15 }) (fun t => t.sp == 16) = true ∧
    passes (exec .ret { State.reset with sp := 1 }) (fun t => t.sp == 0) = true ∧
    passes (exec .cls State.reset) (fun _ => true) = true := by decide

theorem witness_DisplayIndexAndTimersChangeOnlyByTheirInstructions :
    passes (exec (.jp 0xFFF) State.reset) (fun _ => true) = true ∧ Instr.jp 0xFFF ≠ .cls := by decide

theorem witness_KeysAndConfigurationAreFixedDuringSteps :
    passes (step State.reset) (fun _ => true) = true ∧ passes (hostOp (.load [1]) State.reset) (fun _ => true) = true ∧
    HostOp.load [1] ≠ .reset := by decide

theorem witness_RandomByteReachesOnlyRnd : passes (exec (.ldVxDt 15) State.reset) (fun _ => true) = true := by decide

theorem witness_NoInstructionReadsSoundTimerOrInstructionRegister :
    passes (exec (.ldDtVx 15) State.reset) (fun _ => true) = true := by decide

/-- Encoding clauses: for each mask and match, a word with every other bit set. -/
theorem witness_encoding_clauses :
    (0x0FEE : Word) &&& 0xF0FF = 0x00EE ∧ (0x0FE0 : Word) &&& 0xF0FF = 0x00E0 ∧
    (0x1FFF : Word) &&& 0xF000 = 0x1000 ∧ (0x2FFF : Word) &&& 0xF000 = 0x2000 ∧
    (0x3FFF : Word) &&& 0xF000 = 0x3000 ∧ (0x4FFF : Word) &&& 0xF000 = 0x4000 ∧
    (0x5FFF : Word) &&& 0xF000 = 0x5000 ∧ (0x6FFF : Word) &&& 0xF000 = 0x6000 ∧
    (0x7FFF : Word) &&& 0xF000 = 0x7000 ∧ (0x9FFF : Word) &&& 0xF000 = 0x9000 ∧
    (0xAFFF : Word) &&& 0xF000 = 0xA000 ∧ (0xBFFF : Word) &&& 0xF000 = 0xB000 ∧
    (0xCFFF : Word) &&& 0xF000 = 0xC000 ∧ (0xDFFF : Word) &&& 0xF000 = 0xD000 := by decide

theorem witness_encoding_clauses_two_levels :
    (0x8FF0 : Word) &&& 0xF00F = 0x8000 ∧ (0x8FF1 : Word) &&& 0xF00F = 0x8001 ∧
    (0x8FF2 : Word) &&& 0xF00F = 0x8002 ∧ (0x8FF3 : Word) &&& 0xF00F = 0x8003 ∧
    (0x8FF4 : Word) &&& 0xF00F = 0x8004 ∧ (0x8FF5 : Word) &&& 0xF00F = 0x8005 ∧
    (0x8FF6 : Word) &&& 0xF00F = 0x8006 ∧ (0x8FF7 : Word) &&& 0xF00F = 0x8007 ∧
    (0x8FFE : Word) &&& 0xF00F = 0x800E ∧ (0xEF9E : Word) &&& 0xF0FF = 0xE09E ∧
    (0xEFA1 : Word) &&& 0xF0FF = 0xE0A1 ∧ (0xFF07 : Word) &&& 0xF0FF = 0xF007 ∧
    (0xFF0A : Word) &&& 0xF0FF = 0xF00A ∧ (0xFF15 : Word) &&& 0xF0FF = 0xF015 ∧
    (0xFF18 : Word) &&& 0xF0FF = 0xF018 ∧ (0xFF1E : Word) &&& 0xF0FF = 0xF01E ∧
    (0xFF29 : Word) &&& 0xF0FF = 0xF029 ∧ (0xFF33 : Word) &&& 0xF0FF = 0xF033 ∧
    (0xFF55 : Word) &&& 0xF0FF = 0xF055 ∧ (0xFF65 : Word) &&& 0xF0FF = 0xF065 := by decide

theorem witness_ReturnPopsTheReturnAddress :
    0 < ({ State.reset with sp := 1 } : State).sp.val ∧ State.reset.sp.val = 0 := by decide

theorem witness_CallPushesTheAdvancedPc :
    ({ State.reset with sp := 15 } : State).sp.val < 16 ∧ (0 : Fin 16).val ≠ 15 ∧
    ({ State.reset with sp := 16 } : State).sp.val = 16 := by decide

theorem witness_CallThenReturnComesBack : ({ State.reset with sp := 15 } : State).sp.val < 16 := by decide

/-- Either value of `SHIFT_SOURCE`. -/
theorem witness_ShiftsStoreTheDroppedBitThenTheResult :
    let s := (State.reset.setV 1 0x81).setV 2 0x40
    let u := withCfg (fun c => { c with shiftSource := .vy }) s
    (0x81 : Byte) = (if s.cfg.shiftSource = .vx then s.getV 1 else s.getV 2) ∧
    (0x40 : Byte) = (if u.cfg.shiftSource = .vx then u.getV 1 else u.getV 2) := by decide

theorem witness_IndexLoadsSetTheIndexRegister :
    (withCfg (fun c => { c with fontBase := 4016 }) (State.reset.setV 3 0xFF)).cfg.wf = true := by decide

/-- The last address at which the three digits fit, and the next one. -/
theorem witness_DecimalStoreWritesThreeDigits :
    Memory.wf (State.reset.setI 4093).cfg (State.reset.setI 4093).mem ∧ (State.reset.setI 4093).dataAddress 2 ≤ 4095 ∧
    (State.reset.setI 4094).dataAddress 2 > 4095 := by decide

theorem witness_BulkStoreWritesRegistersUpToX :
    Memory.wf (State.reset.setI 4080).cfg (State.reset.setI 4080).mem ∧
    (State.reset.setI 4080).dataAddress (15 : Reg).val ≤ 4095 ∧ (15 : Reg) ≤ 15 ∧
    (State.reset.setI 4081).dataAddress (15 : Reg).val > 4095 := by decide

theorem witness_BulkLoadReadsRegistersUpToX :
    (State.reset.setI 4081).dataAddress (14 : Reg).val ≤ 4095 ∧ (14 : Reg) ≤ 14 ∧ (14 : Reg) < 15 ∧
    (State.reset.setI 4082).dataAddress (14 : Reg).val > 4095 := by decide

theorem witness_RegisterDumpThenLoadRoundTrips :
    Memory.wf (State.reset.setI 4080).cfg (State.reset.setI 4080).mem ∧
    (State.reset.setI 4080).i.toNat + (15 : Reg).val ≤ 4095 ∧ (15 : Reg) ≤ 15 := by decide

theorem witness_StoredBytesAreFetchedAtOnce :
    Memory.wf (State.reset.setI 4080).cfg (State.reset.setI 4080).mem ∧
    (State.reset.setI 4080).dataAddress (15 : Reg).val ≤ 4095 ∧ (14 : Reg) < 15 := by decide

theorem witness_EqualMemoriesAreEqualData : Memory.wf Config.default [(0, 1), (4095, 255)] := by decide

theorem witness_RandomIsMaskedWithTheImmediate : ({ State.reset with rndIn := [0xFF] } : State).rndIn = 0xFF :: [] := by decide

theorem witness_HostByteIsTheOneRndReceives : fetches (atPc 0xFFE 0xCF0F) (.rnd 15 0x0F) = true := by decide

theorem witness_KeySkipsTestTheNumberedKey :
    ((State.reset.setV 0 15).getV 0).toNat ≤ 15 ∧ ((State.reset.setV 0 16).getV 0).toNat > 15 := by decide

theorem witness_KeyWaitStoresTheLeastKeyOrRepeats :
    (State.reset.setKeys 0x8000).key.getLsbD (15 : Fin 16).val = true ∧
    (∀ k : Fin 16, k < 15 → (State.reset.setKeys 0x8000).key.getLsbD k.val = false) ∧
    (∀ j : Fin 16, State.reset.key.getLsbD j.val = false) := by decide

theorem witness_CoordinatesWrapOrClip :
    (63 ≤ 63 ∧ 31 ≤ 31) ∧ (64 > 63 ∨ 31 > 31) ∧ (63 > 63 ∨ 32 > 31) := by decide

/-- The last sprite byte at address 4095, no bytes at all, a covered pixel that is on, a pixel not covered. -/
theorem witness_DrawTogglesExactlyTheCoveredPixels :
    (State.reset.setI 4095).dataAddress ((1 : Fin 16).val - 1) ≤ 4095 ∧ (0 : Fin 16).val = 0 ∧
    coord .wrap (0 + 7) (0 + 0) = some (7, 0) ∧ (0x01 : Byte).getLsbD (7 - 7) = true ∧
    passes (exec (.drw 0 1 1) ((State.reset.setI 4095).writeBytes 4095 [1])) (fun t =>
      Framebuffer.pixel t.fb 0 7 && !Framebuffer.pixel t.fb 0 6 && t.getV 15 == 0) = true ∧
    passes (exec (.drw 0 1 1) (((State.reset.setI 4095).writeBytes 4095 [1]).setFb (Framebuffer.dark.set 0 0x80)))
      (fun t => !Framebuffer.pixel t.fb 0 7 && t.getV 15 == 1) = true := by decide

/-- The sprite of the witness above covers the pixel. -/
theorem witness_SpriteCovers : SpriteCovers ((State.reset.setI 4095).writeBytes 4095 [1]) 0 1 1 0 7 :=
  ⟨0, by decide, 7, by decide, by decide, by decide⟩

theorem witness_DrawPastMemoryRaisesDataRange :
    (2 : Fin 16).val > 0 ∧ (State.reset.setI 4095).dataAddress ((2 : Fin 16).val - 1) > 4095 := by decide

theorem witness_DrawingTwiceRestoresTheFramebuffer :
    (0 : Reg) ≠ 15 ∧ (14 : Reg) ≠ 15 ∧ (0 : Fin 16).val = 0 ∧
    (State.reset.setI 4081).dataAddress ((15 : Fin 16).val - 1) ≤ 4095 := by decide

/-- Either value of `TIMER_TICK`. -/
theorem witness_DelaySetIsTickedInItsOwnStep :
    fetches (atPc 0xFFE 0xFF15) (.ldDtVx 15) = true ∧ (atPc 0xFFE 0xFF15).cfg.timerTick = .perStep ∧
    fetches (withCfg (fun c => { c with timerTick := .external }) (atPc 0xFFE 0xFF15)) (.ldDtVx 15) = true ∧
    (withCfg (fun c => { c with timerTick := .external }) (atPc 0xFFE 0xFF15)).cfg.timerTick = .external := by decide

theorem witness_EveryCompletedStepTicksBothTimers :
    (atPc 0xFFE 0x6001).fault = 0 ∧ passes (step (atPc 0xFFE 0x6001)) (fun t => t.fault == 0) = true ∧
    fetches (atPc 0xFFE 0x6001) (.ldImm 0 1) = true := by decide

theorem witness_ResetStateIsTheTableOfInitialValues :
    let c : Config := { Config.default with fontBase := 4016 }
    c.wf = true ∧ (4015 < c.fontBase.toNat ∨ c.fontBase.toNat + 80 ≤ 4015) ∧
    (4096 < c.fontBase.toNat ∨ c.fontBase.toNat + 80 ≤ 4096) := by decide

theorem witness_InitializeIgnoresTheStateBefore : State.reset.cfg = (State.reset.raise .dataRange).cfg := by decide

/-- A region of two bytes: an image of two fits, one of three does not. -/
theorem witness_LoadCopiesTheWholeImageOrNothing :
    let s := State.initial { Config.default with programOrigin := 0xFFE }
    s.cfg.wf = true ∧ Memory.wf s.cfg s.mem ∧ ([1, 2] : List Byte).length ≤ 4096 - s.cfg.programOrigin.toNat ∧
    ([1, 2, 3] : List Byte).length > 4096 - s.cfg.programOrigin.toNat := by decide

theorem witness_KeyAndTimerOperationsDoOnlyTheirOwn :
    let s := withCfg (fun c => { c with timerTick := .external }) State.reset
    s.cfg.timerTick = .external ∧ s.fault = 0 ∧ (s.raise .fetchRange).cfg.timerTick = .external ∧
    (s.raise .fetchRange).fault ≠ 0 := by decide

theorem witness_PlacedWordIsFetchedNext :
    Memory.wf (State.reset.setPc 0x1000).cfg (State.reset.setPc 0x1000).mem := by decide

end Sys2Proof.Tests
end

section
/-!
What one handler does, said once for all 34 instructions: the fault it raises and when (spec/60_exceptions.md R161), where
it leaves `PC` (spec/10_state.md R13), and the shape of the state a completed handler leaves.
-/

namespace Sys2Proof.Machine

/-- The fault an instruction raises on a state, if it raises one (R155, R161). -/
def faultOf (i : Instr) (s : State) : Option Fault :=
  match i with
  | .call _                  => if s.sp.val = 16 then some .stackOverflow else none
  | .ret                     => if s.sp.val = 0 then some .stackUnderflow else none
  | .drw _ _ n               => if s.dataInRange n.val then none else some .dataRange
  | .ldBVx _                 => if s.dataInRange 3 then none else some .dataRange
  | .ldMemVx x | .ldVxMem x  => if s.dataInRange (x.val + 1) then none else some .dataRange
  | .skp x | .sknp x         => if (s.getV x).toNat > 15 then some .keyRange else none
  | _                        => none

/-- `PC` after a handler that raises no fault (R13). -/
def nextPc (i : Instr) (s : State) : Word :=
  match i with
  | .seImm x nn  => if s.getV x = nn then s.pc + 4 else s.pc + 2
  | .sneImm x nn => if s.getV x = nn then s.pc + 2 else s.pc + 4
  | .seReg x y   => if s.getV x = s.getV y then s.pc + 4 else s.pc + 2
  | .sneReg x y  => if s.getV x = s.getV y then s.pc + 2 else s.pc + 4
  | .skp x       => if s.keyDown (s.getV x).toNat then s.pc + 4 else s.pc + 2
  | .sknp x      => if s.keyDown (s.getV x).toNat then s.pc + 2 else s.pc + 4
  | .jp nnn      => zextAddr nnn
  | .call nnn    => zextAddr nnn
  | .ret         => s.stack[s.sp.val - 1]
  | .jpV0 nnn    => s.indexedTarget nnn
  | .ldVxK _     => if s.key = 0 then s.pc else s.pc + 2
  | _            => s.pc + 2

/-- The instructions that may complete by moving `PC` alone: jumps, skips, and the key wait while no key is down. -/
def movesOnlyPc : Instr → Bool
  | .jp _ | .jpV0 _ | .ldVxK _                                                     => true
  | .seImm _ _ | .sneImm _ _ | .seReg _ _ | .sneReg _ _ | .skp _ | .sknp _         => true
  | _                                                                              => false

/-- The states a handler that raises no fault may leave. The values put in general registers and pixels are left open
here; everything else is exact. -/
inductive Completes (s : State) : Instr → State → Prop where
  | jumps {i : Instr} (hi : movesOnlyPc i = true) : Completes s i (s.setPc (nextPc i s))
  | setsRegs {i : Instr} (v : Vector Byte 16) (hi : destRegs i ≠ []) (hpc : nextPc i s = s.pc + 2)
      (hv : ∀ r, r ∉ destRegs i → v[r.val] = s.getV r) : Completes s i { s.advancePc with v := v }
  | loadsIndex (nnn : Addr) : Completes s (.ldI nnn) (s.advancePc.setI (zextAddr nnn))
  | addsToIndex (x : Reg) : Completes s (.addIVx x) (s.advancePc.setI (s.i + zextByte (s.getV x)))
  | pointsToGlyph (x : Reg) : Completes s (.ldFVx x) (s.advancePc.setI (glyphAddress s.cfg (s.getV x)))
  | setsDelay (x : Reg) : Completes s (.ldDtVx x) (s.advancePc.setDt (s.getV x))
  | setsSound (x : Reg) : Completes s (.ldStVx x) (s.advancePc.setSt (s.getV x))
  | clears : Completes s .cls (s.advancePc.setFb Framebuffer.dark)
  | draws (x y : Reg) (n : Fin 16) (fb : Framebuffer) (flag : Byte) :
      Completes s (.drw x y n) ((s.advancePc.setFb fb).setV vf flag)
  | storesDigits (x : Reg) (hr : s.dataInRange 3 = true) :
      Completes s (.ldBVx x) (s.advancePc.writeBytes (s.dataAddress 0) (decimalDigits (s.getV x)))
  | storesRegs (x : Reg) (hr : s.dataInRange (x.val + 1) = true) :
      Completes s (.ldMemVx x) (s.advancePc.writeBytes (s.dataAddress 0) ((regsUpTo x).map s.getV))
  | calls (nnn : Addr) (h : s.sp.val < 16) :
      Completes s (.call nnn) ((s.advancePc.push s.advancePc.pc).setPc (zextAddr nnn))
  | returns (h : 0 < s.sp.val) : Completes s .ret s.advancePc.popPc

/-! ### How the shared operations fit those shapes -/

theorem Completes.of_skipIf {i : Instr} {s : State} {c : Bool} (hi : movesOnlyPc i = true)
    (hpc : nextPc i s = if c then s.pc + 4 else s.pc + 2) : Completes s i (s.skipIf c) := by
  rw [State.skipIf_eq, ← hpc]
  exact .jumps hi

/-- `t` is `s` past the word with other registers, all of them destinations. -/
theorem Completes.of_keepsRegsBut {i : Instr} {s t : State} (hi : destRegs i ≠ []) (hpc : nextPc i s = s.pc + 2)
    (hr : KeepsRegsBut (destRegs i) s t) (ht : t = { s.advancePc with v := t.v }) : Completes s i t :=
  ht ▸ .setsRegs t.v hi hpc hr

theorem Completes.of_setV {i : Instr} {s : State} {x : Reg} (b : Byte) (hx : x ∈ destRegs i)
    (hpc : nextPc i s = s.pc + 2) : Completes s i (s.advancePc.setV x b) :=
  .of_keepsRegsBut (List.ne_nil_of_mem hx) hpc
    (fun _ hr => State.getV_setV_ne _ (ne_of_mem_of_not_mem hx hr).symm b) rfl

theorem Completes.of_setFlagThenV {i : Instr} {s : State} {x : Reg} (f : Bool) (b : Byte) (hi : destRegs i = [x, 15])
    (hpc : nextPc i s = s.pc + 2) : Completes s i (s.advancePc.setFlagThenV x f b) := by
  refine .of_keepsRegsBut (by simp [hi]) hpc (fun r hr => ?_) rfl
  obtain ⟨hx, hf⟩ : r ≠ x ∧ r ≠ vf := by simpa [hi, vf] using hr
  simp [State.setFlagThenV_getV, hx, hf]

theorem Completes.of_loadRegs (x : Reg) (s : State) : Completes s (.ldVxMem x) (s.advancePc.loadRegs (regsUpTo x)) := by
  refine .of_keepsRegsBut (fun h => ?_) rfl (fun r hr => ?_) (State.loadRegs_eq _ _)
  · have hx : x ∈ regsUpTo x := (mem_regsUpTo x x).mpr le_rfl
    exact absurd hx (by simp [show regsUpTo x = [] from h])
  · have hr : r ∉ regsUpTo x := hr
    rw [State.loadRegs_getV, if_neg hr, State.advancePc_getV]

/-- The least pressed key is missing exactly when no key is down (spec/47_input.md R127). -/
theorem State.lowestKey_eq_none_iff (s : State) : s.lowestKey = none ↔ s.key = 0 := by
  have hall : ∀ j : Fin 16, j ∈ allRegs := by decide
  simp only [State.lowestKey, State.keyDown, List.find?_eq_none]
  constructor
  · intro h
    apply BitVec.eq_of_getLsbD_eq
    intro k hk
    simpa using h ⟨k, hk⟩ (hall _)
  · intro h j _
    simp [h]

/-! ### The inversion of `exec` -/

/-- Every handler answers a next state: its fault raised, or one of the completed shapes. -/
theorem exec_cases (i : Instr) (s : State) :
    (∃ f, faultOf i s = some f ∧ exec i s = .next (s.raise f)) ∨
    (faultOf i s = none ∧ ∃ t, exec i s = .next t ∧ Completes s i t) := by
  cases i with
  | cls => exact .inr ⟨rfl, _, rfl, .clears⟩
  | ret =>
    by_cases h : s.sp.val = 0
    · exact .inl ⟨_, if_pos h, if_pos h⟩
    · exact .inr ⟨if_neg h, _, if_neg h, .returns (Nat.pos_of_ne_zero h)⟩
  | jp nnn | jpV0 nnn => exact .inr ⟨rfl, _, rfl, .jumps rfl⟩
  | call nnn =>
    by_cases h : s.sp.val = 16
    · exact .inl ⟨_, if_pos h, if_pos h⟩
    · exact .inr ⟨if_neg h, _, if_neg h, .calls nnn (by omega)⟩
  | seImm | sneImm | seReg | sneReg => exact .inr ⟨rfl, _, rfl, .of_skipIf rfl (by simp [nextPc])⟩
  | skp x | sknp x =>
    by_cases h : (s.getV x).toNat > 15
    · exact .inl ⟨_, if_pos h, if_pos h⟩
    · exact .inr ⟨if_neg h, _, if_neg h, .of_skipIf rfl (by cases hk : s.keyDown (s.getV x).toNat <;> simp [nextPc, hk])⟩
  | ldImm x | addImm x | ldReg x | orReg x | andReg x | xorReg x | rnd x | ldVxDt x =>
    exact .inr ⟨rfl, _, rfl, .of_setV _ (List.mem_singleton.mpr rfl) rfl⟩
  | addReg x y | sub x y | subn x y | shr x y | shl x y => exact .inr ⟨rfl, _, rfl, .of_setFlagThenV _ _ rfl rfl⟩
  | ldI nnn => exact .inr ⟨rfl, _, rfl, .loadsIndex nnn⟩
  | addIVx x => exact .inr ⟨rfl, _, rfl, .addsToIndex x⟩
  | ldFVx x => exact .inr ⟨rfl, _, rfl, .pointsToGlyph x⟩
  | ldDtVx x => exact .inr ⟨rfl, _, rfl, .setsDelay x⟩
  | ldStVx x => exact .inr ⟨rfl, _, rfl, .setsSound x⟩
  | drw x y n =>
    by_cases h : s.dataInRange n.val = true
    · exact .inr ⟨if_pos h, _, if_pos h, .draws x y n _ _⟩
    · exact .inl ⟨_, if_neg h, if_neg h⟩
  | ldBVx x =>
    by_cases h : s.dataInRange 3 = true
    · exact .inr ⟨if_pos h, _, if_pos h, .storesDigits x h⟩
    · exact .inl ⟨_, if_neg h, if_neg h⟩
  | ldMemVx x =>
    by_cases h : s.dataInRange (x.val + 1) = true
    · exact .inr ⟨if_pos h, _, if_pos h, .storesRegs x h⟩
    · exact .inl ⟨_, if_neg h, if_neg h⟩
  | ldVxMem x =>
    by_cases h : s.dataInRange (x.val + 1) = true
    · exact .inr ⟨if_pos h, _, if_pos h, .of_loadRegs x s⟩
    · exact .inl ⟨_, if_neg h, if_neg h⟩
  | ldVxK x =>
    cases hk : s.lowestKey with
    | none =>
      have h0 : s.key = 0 := s.lowestKey_eq_none_iff.mp hk
      have hback : s.advancePc.rewindPc = s.setPc (nextPc (.ldVxK x) s) := by
        simp [nextPc, h0, State.rewindPc, State.advancePc, State.setPc]
      exact .inr ⟨rfl, s.advancePc.rewindPc, by simp only [exec, execLdVxK, hk], hback ▸ Completes.jumps rfl⟩
    | some j =>
      have h0 : s.key ≠ 0 := fun h => by simp [s.lowestKey_eq_none_iff.mpr h] at hk
      exact .inr ⟨rfl, s.advancePc.setV x (BitVec.ofNat 8 j.val), by simp only [exec, execLdVxK, hk],
        .of_setV _ (List.mem_singleton.mpr rfl) (if_neg h0)⟩

/-- `exec_cases` as an inversion: what a given next state can be. -/
theorem exec_next_inv {i : Instr} {s t : State} (h : exec i s = .next t) :
    (∃ f, faultOf i s = some f ∧ t = s.raise f) ∨ (faultOf i s = none ∧ Completes s i t) := by
  rcases exec_cases i s with ⟨f, hf, he⟩ | ⟨hf, u, he, hc⟩
  · injection he.symm.trans h with e
    exact .inl ⟨f, hf, e.symm⟩
  · injection he.symm.trans h with e
    exact .inr ⟨hf, e ▸ hc⟩

/-! ### What a completed handler leaves, field by field -/

section
variable {i : Instr} {s t : State}

theorem Completes.pc_eq (h : Completes s i t) : t.pc = nextPc i s := by
  cases h with
  | setsRegs v hi hpc hv => exact hpc.symm
  | storesDigits | storesRegs => exact State.writeBytes_pc _ _ _
  | returns h => rw [State.popPc_of_pos (s := s.advancePc) h]; rfl
  | _ => rfl

theorem Completes.keepsRegs (h : Completes s i t) : KeepsRegsBut (destRegs i) s t := by
  intro r hr
  cases h with
  | setsRegs v hi hpc hv => exact hv r hr
  | draws x y n fb flag =>
    have hf : r ≠ vf := by simpa [destRegs, vf] using hr
    simp [State.getV_setV_ne _ hf]
  | _ => simp

theorem Completes.cfg_eq (h : Completes s i t) : t.cfg = s.cfg := by
  cases h <;> simp

theorem Completes.fault_eq (h : Completes s i t) : t.fault = s.fault := by
  cases h <;> simp

theorem Completes.fb_eq (h : Completes s i t) (hc : i ≠ .cls) (hd : ∀ x y n, i ≠ .drw x y n) : t.fb = s.fb := by
  cases h with
  | clears => exact absurd rfl hc
  | draws x y n fb flag => exact absurd rfl (hd x y n)
  | _ => simp

theorem Completes.i_eq (h : Completes s i t) (hl : ∀ a, i ≠ .ldI a) (ha : ∀ x, i ≠ .addIVx x ∧ i ≠ .ldFVx x) :
    t.i = s.i := by
  cases h with
  | loadsIndex nnn => exact absurd rfl (hl nnn)
  | addsToIndex x => exact absurd rfl (ha x).1
  | pointsToGlyph x => exact absurd rfl (ha x).2
  | _ => simp

theorem Completes.dt_eq (h : Completes s i t) (hd : ∀ x, i ≠ .ldDtVx x) : t.dt = s.dt := by
  cases h with
  | setsDelay x => exact absurd rfl (hd x)
  | _ => simp

theorem Completes.st_eq (h : Completes s i t) (hs : ∀ x, i ≠ .ldStVx x) : t.st = s.st := by
  cases h with
  | setsSound x => exact absurd rfl (hs x)
  | _ => simp

theorem Completes.stack_eq (h : Completes s i t) (hc : ∀ a, i ≠ .call a) : t.stack = s.stack := by
  cases h with
  | calls nnn hs => exact absurd rfl (hc nnn)
  | _ => simp

theorem Completes.sp_eq (h : Completes s i t) (hc : ∀ a, i ≠ .call a) (hr : i ≠ .ret) : t.sp = s.sp := by
  cases h with
  | calls nnn hs => exact absurd rfl (hc nnn)
  | returns hs => exact absurd rfl hr
  | _ => simp

/-- `CALL` stores the advanced `PC` at `STACK[SP]` and increments `SP`. -/
theorem Completes.call_stack {nnn : Addr} (h : Completes s (.call nnn) t) :
    ∃ hs : s.sp.val < 16, t.stack = s.stack.set s.sp.val (s.pc + 2) ∧ t.sp.val = s.sp.val + 1 := by
  cases h with
  | jumps hi => cases hi
  | setsRegs v hi => exact absurd rfl hi
  | calls _ hs =>
    rw [State.push_of_lt (s := s.advancePc) hs]
    exact ⟨hs, rfl, rfl⟩

/-- `RET` decrements `SP`. -/
theorem Completes.ret_sp (h : Completes s .ret t) : t.sp.val = s.sp.val - 1 := by
  cases h with
  | jumps hi => cases hi
  | setsRegs v hi => exact absurd rfl hi
  | returns hs => rw [State.popPc_of_pos (s := s.advancePc) hs]; rfl

end

end Sys2Proof.Machine
end

section
/-!
The invariant of spec/10_state.md R33: kept by every handler, by the end of a step and by every host operation, so it holds
of every reachable state.
-/

namespace Sys2Proof.Machine

/-! ### The invariant and the shared operations -/

/-- Only five fields matter to the invariant. -/
theorem StateInv.of_kept {s t : State} (hs : StateInv s) (hcfg : t.cfg = s.cfg) (hmem : t.mem = s.mem)
    (hpc : t.pc = s.pc) (hstack : t.stack = s.stack) (hfault : t.fault = s.fault) : StateInv t where
  cfgWf := hcfg ▸ hs.cfgWf
  memWf := by rw [hcfg, hmem]; exact hs.memWf
  pcMax := hpc ▸ hs.pcMax
  stackMax := by rw [hstack]; exact hs.stackMax
  faultMax := hfault ▸ hs.faultMax

/-- R5: the origin of a well-formed configuration leaves room for a word. -/
theorem programOrigin_le_of_wf {c : Config} (hc : c.wf = true) : c.programOrigin.toNat ≤ 4094 := by
  simp only [Config.wf, Config.originInMemory, Bool.and_eq_true, decide_eq_true_eq] at hc
  exact hc.1.2

theorem StateInv.initial {c : Config} (hc : c.wf = true) : StateInv (State.initial c) where
  cfgWf := hc
  memWf := Memory.nil_wf c
  pcMax := by
    rw [State.initial_pc]
    exact (programOrigin_le_of_wf hc).trans (by decide)
  stackMax k := by simp
  faultMax := by simp

theorem StateInv.raise {s : State} (hs : StateInv s) (f : Fault) : StateInv (s.raise f) :=
  { hs with faultMax := f.code_le_five }

/-- A run of writes inside memory keeps the invariant. -/
theorem StateInv.writeBytes {s : State} (hs : StateInv s) {a : Nat} {bs : List Byte} (hr : a + bs.length ≤ 4096) :
    StateInv (s.writeBytes a bs) := by
  rw [State.writeBytes_eq]
  exact { hs with memWf := State.writeBytes_wf hs.memWf hr }

theorem StateInv.tick {s : State} (hs : StateInv s) : StateInv s.tick := hs.of_kept rfl rfl rfl rfl rfl

theorem StateInv.finishStep {s : State} (hs : StateInv s) (w : Word) : StateInv (s.finishStep w) := by
  by_cases hf : s.fault = 0
  · rw [State.finishStep_of_ok hf]
    exact hs.of_kept rfl rfl rfl rfl rfl
  · rwa [State.finishStep_of_fault hf]

/-! ### Handlers -/

/-- `PC` stays at most 4350: an advance or a skip from at most 4094, an address of 12 bits, an entry of the stack, or an
address of 12 bits plus a byte. -/
theorem nextPc_le {s : State} (hs : StateInv s) (hpc : s.pc.toNat ≤ 4094) (i : Instr) : (nextPc i s).toNat ≤ 4350 := by
  have h2 : (s.pc + 2).toNat ≤ 4350 := by bv_omega
  have h4 : (s.pc + 4).toNat ≤ 4350 := by bv_omega
  cases i with
  | seImm | sneImm | seReg | sneReg | skp | sknp =>
    dsimp only [nextPc]
    split <;> assumption
  | jp nnn | call nnn =>
    have := nnn.isLt
    simp only [nextPc, zextAddr, BitVec.toNat_setWidth]
    omega
  | ret =>
    have hk := hs.stackMax ⟨s.sp.val - 1, by omega⟩
    exact hk.trans (by decide)
  | jpV0 nnn =>
    have := nnn.isLt
    have := (s.getV 0).isLt
    simp only [nextPc, State.indexedTarget, zextAddr, zextByte, BitVec.toNat_add, BitVec.toNat_setWidth]
    omega
  | ldVxK =>
    dsimp only [nextPc]
    split
    · exact hs.pcMax
    · exact h2
  | _ => exact h2

/-- The two stores write inside memory, no other handler writes it. -/
theorem Completes.memWf {i : Instr} {s t : State} (h : Completes s i t) (hm : Memory.wf s.cfg s.mem) :
    Memory.wf t.cfg t.mem := by
  cases h with
  | storesDigits x hr =>
    have hr : s.i.toNat + 3 ≤ 4096 := by simpa [State.dataInRange_iff] using hr
    rw [State.writeBytes_cfg]
    exact State.writeBytes_wf (s := s.advancePc) hm (by simpa [decimalDigits, State.dataAddress] using hr)
  | storesRegs x hr =>
    have hr : s.i.toNat + (x.val + 1) ≤ 4096 := by simpa [State.dataInRange_iff] using hr
    rw [State.writeBytes_cfg]
    exact State.writeBytes_wf (s := s.advancePc) hm (by simpa [regsUpTo_length, State.dataAddress] using hr)
  | _ => simpa using hm

/-- The one entry a handler stores is an advanced `PC`. -/
theorem Completes.stackMax {i : Instr} {s t : State} (h : Completes s i t) (hpc : s.pc.toNat ≤ 4094)
    (hs : ∀ k : Fin 16, (s.stack[k.val]).toNat ≤ 4096) (k : Fin 16) : (t.stack[k.val]).toNat ≤ 4096 := by
  by_cases hc : ∃ nnn, i = .call nnn
  · obtain ⟨nnn, rfl⟩ := hc
    obtain ⟨_, hstack, _⟩ := h.call_stack
    simp only [hstack, Vector.getElem_set]
    split
    · bv_omega
    · exact hs k
  · rw [h.stack_eq (by simpa using hc)]
    exact hs k

theorem StateInv.of_exec {i : Instr} {s t : State} (hs : StateInv s) (hpc : s.pc.toNat ≤ 4094)
    (h : exec i s = .next t) : StateInv t := by
  rcases exec_next_inv h with ⟨f, _, rfl⟩ | ⟨_, hc⟩
  · exact hs.raise f
  · exact {
      cfgWf := hc.cfg_eq ▸ hs.cfgWf
      memWf := hc.memWf hs.memWf
      pcMax := hc.pc_eq ▸ nextPc_le hs hpc i
      stackMax := hc.stackMax hpc hs.stackMax
      faultMax := hc.fault_eq ▸ hs.faultMax }

theorem StateInv.of_dispatch {w : Word} {s t : State} (hs : StateInv s) (hpc : s.pc.toNat ≤ 4094)
    (h : dispatch w s = .next t) : StateInv t := by
  rcases dispatch_next_cases h with ⟨i, _, he⟩ | ⟨_, rfl⟩
  · exact hs.of_exec hpc he
  · exact { hs with pcMax := by rw [State.advancePc_pc]; bv_omega }

theorem StateInv.of_step {s t : State} (hs : StateInv s) (h : step s = .next t) : StateInv t := by
  rcases step_next_cases h with ⟨_, rfl⟩ | ⟨_, _, rfl⟩ | ⟨_, w, u, hf, hd, rfl⟩
  · exact hs
  · exact hs.raise _
  · exact (hs.of_dispatch (State.fetch_eq_some hf).1 hd).finishStep w

/-! ### Host operations -/

theorem StateInv.of_stepWith {r : Byte} {s t : State} (hs : StateInv s) (h : stepWith r s = .next t) : StateInv t := by
  obtain ⟨u, hu, rfl⟩ := stepWith_next_cases h
  have hs' : StateInv { s with rndIn := [r] } := hs.of_kept rfl rfl rfl rfl rfl
  exact (hs'.of_step hu).of_kept rfl rfl rfl rfl rfl

theorem StateInv.load {s : State} (hs : StateInv s) (image : List Byte) : StateInv (s.load image).2 := by
  rcases s.load_cases image with ⟨_, he⟩ | ⟨hl, he⟩ <;> rw [he]
  · exact hs
  · have ho := programOrigin_le_of_wf hs.cfgWf
    exact hs.writeBytes (by omega)

theorem StateInv.tickTimers {s : State} (hs : StateInv s) : StateInv s.tickTimers := by
  rcases s.tickTimers_cases with ⟨_, he⟩ | ⟨_, he⟩ <;> rw [he]
  · exact hs
  · exact hs.tick

theorem StateInv.of_hostOp {o : HostOp} {s t : State} (hs : StateInv s) (h : hostOp o s = .next t) : StateInv t := by
  rcases hostOp_next_cases h with ⟨_, rfl⟩ | ⟨image, _, rfl⟩ | ⟨r, _, hr⟩ | ⟨k, _, rfl⟩ | ⟨_, rfl⟩ | ⟨_, _, rfl⟩
  · exact .initial hs.cfgWf
  · exact hs.load image
  · exact hs.of_stepWith hr
  · exact hs.of_kept rfl rfl rfl rfl rfl
  · exact hs
  · exact hs.tickTimers

/-! ### The obligations -/

/-- Settles O14: each end of a step (halted, a fetch fault, a dispatched word) keeps the invariant. -/
theorem everyStepKeepsTheStateInvariant : Obligations.EveryStepKeepsTheStateInvariant :=
  fun _ _ hs h => hs.of_step h

/-- Settles O15. -/
theorem resetMeetsTheStateInvariant : Obligations.ResetMeetsTheStateInvariant :=
  ⟨.initial (by decide), fun _ hc => .initial hc⟩

/-- Settles O16, by induction on how the state was reached. -/
theorem reachableStatesMeetTheInvariant : Obligations.ReachableStatesMeetTheInvariant := by
  intro s h
  induction h with
  | start c hc => exact .initial hc
  | op o _ ho ih => exact ih.of_hostOp ho

end Sys2Proof.Machine
end

section
/-!
Frames of handlers, steps and host operations (spec/10_state.md R11 to R24, R34), and what no handler reads.
-/

namespace Sys2Proof.Machine

/-! ### What no handler but `LD ST` and `RND` can tell apart -/

/-- `s` with other values of what handlers carry along: `IR`, `ST` and the random bytes. -/
def State.withUnread (s : State) (ir : Word) (st : Byte) (bytes : List Byte) (n : Nat) : State :=
  { s with ir := ir, st := st, rndIn := bytes, draws := n }

section
variable (s : State) (ir : Word) (st : Byte) (bytes : List Byte) (n : Nat)

theorem State.push_withUnread (a : Word) :
    (s.withUnread ir st bytes n).push a = (s.push a).withUnread ir st bytes n := by
  by_cases h : s.sp.val < 16 <;> simp [State.push, State.withUnread, h]

theorem State.popPc_withUnread : (s.withUnread ir st bytes n).popPc = s.popPc.withUnread ir st bytes n := by
  by_cases h : 0 < s.sp.val <;> simp [State.popPc, State.withUnread, h]

theorem State.skipIf_withUnread (c : Bool) :
    (s.withUnread ir st bytes n).skipIf c = (s.skipIf c).withUnread ir st bytes n := by
  cases c <;> rfl

theorem State.readBytes_withUnread (a len : Nat) :
    (s.withUnread ir st bytes n).readBytes a len = s.readBytes a len := by
  induction len generalizing a with
  | zero => rfl
  | succ len ih => exact congrArg (s.readByte a :: ·) (ih (a + 1))

theorem State.writeBytes_withUnread (a : Nat) (bs : List Byte) :
    (s.withUnread ir st bytes n).writeBytes a bs = (s.writeBytes a bs).withUnread ir st bytes n := by
  induction bs generalizing s a with
  | nil => rfl
  | cons b bs ih => exact ih (s.writeByte a b) (a + 1)

theorem State.loadRegs_withUnread (rs : List Reg) :
    (s.withUnread ir st bytes n).loadRegs rs = (s.loadRegs rs).withUnread ir st bytes n := by
  induction rs generalizing s with
  | nil => rfl
  | cons r rs ih => exact ih (s.setV r (s.readByte (s.dataAddress r.val)))

end

/-- A handler with a check carries the fields along when both of its results do. -/
theorem next_withUnread_of_ite {c : Prop} [Decidable c] {u w u' w' t : State} {ir : Word} {st : Byte}
    {bytes : List Byte} {n : Nat} (h : (if c then .next u else .next w : Host.Outcome State Fault Refusal) = .next t)
    (hu : u' = u.withUnread ir st bytes n) (hw : w' = w.withUnread ir st bytes n) :
    (if c then .next u' else .next w' : Host.Outcome State Fault Refusal) = .next (t.withUnread ir st bytes n) := by
  split at h
  · rename_i hc
    injection h with h
    rw [if_pos hc, hu, h]
  · rename_i hc
    injection h with h
    rw [if_neg hc, hw, h]

/-- Every handler but `RND`, which reads the random byte, and `LD ST`, which writes `ST`, carries all four fields along. -/
theorem exec_withUnread {i : Instr} {s t : State} (hr : ∀ x nn, i ≠ .rnd x nn) (hs : ∀ x, i ≠ .ldStVx x)
    (h : exec i s = .next t) (ir : Word) (st : Byte) (bytes : List Byte) (n : Nat) :
    exec i (s.withUnread ir st bytes n) = .next (t.withUnread ir st bytes n) := by
  cases i with
  | rnd x nn => exact absurd rfl (hr x nn)
  | ldStVx x => exact absurd rfl (hs x)
  | ret => exact next_withUnread_of_ite h rfl (s.advancePc.popPc_withUnread ..)
  | call nnn => exact next_withUnread_of_ite h rfl (congrArg (·.setPc (zextAddr nnn)) (s.advancePc.push_withUnread ..))
  | seImm | sneImm | seReg | sneReg =>
    injection h with h
    exact h ▸ congrArg _ (s.skipIf_withUnread ..)
  | skp | sknp => exact next_withUnread_of_ite h rfl (s.skipIf_withUnread ..)
  | drw => exact next_withUnread_of_ite h (by rw [State.readBytes_withUnread]; rfl) rfl
  | ldBVx | ldMemVx => exact next_withUnread_of_ite h (s.advancePc.writeBytes_withUnread ..) rfl
  | ldVxMem => exact next_withUnread_of_ite h (s.advancePc.loadRegs_withUnread ..) rfl
  | ldVxK x =>
    cases hk : s.lowestKey
    all_goals
      have hk' : (s.withUnread ir st bytes n).lowestKey = s.lowestKey := rfl
      simp only [exec, execLdVxK, hk', hk] at h ⊢
      injection h with h
      exact h ▸ rfl
  | _ =>
    injection h with h
    exact h ▸ rfl

/-- Settles O23: `IR` and `ST` are carried along, and no handler changes the host's random bytes. -/
theorem noInstructionReadsSoundTimerOrInstructionRegister :
    Obligations.NoInstructionReadsSoundTimerOrInstructionRegister := by
  intro i s t a b hs h
  by_cases hr : ∃ x nn, i = .rnd x nn
  · obtain ⟨x, nn, rfl⟩ := hr
    injection h with h
    exact h ▸ rfl
  · have hu := exec_withUnread (by simpa using hr) hs h a b s.rndIn s.draws
    have ht : t.withUnread a b s.rndIn s.draws = { t with ir := a, st := b } := by
      rcases exec_next_cases h with ⟨f, rfl⟩ | ⟨_, _, _, _, hrnd, hdraws⟩
      · rfl
      · rw [← hrnd, ← hdraws]
        rfl
    exact ht ▸ hu

/-! ### What a handler leaves unchanged -/

/-- Settles O17. -/
theorem registersChangeOnlyWhereTheyAreDestinations : Obligations.RegistersChangeOnlyWhereTheyAreDestinations := by
  intro i s t h
  rcases exec_next_inv h with ⟨f, _, rfl⟩ | ⟨_, hc⟩
  · exact fun r _ => s.raise_getV f r
  · exact hc.keepsRegs

/-- Settles O19: a raise keeps the stack; with room `CALL` does not raise, with an entry `RET` does not. -/
theorem onlyCallAndReturnTouchTheCallStack : Obligations.OnlyCallAndReturnTouchTheCallStack := by
  intro i s t h
  rcases exec_next_inv h with ⟨f, hf, rfl⟩ | ⟨_, hc⟩
  · refine ⟨fun _ => rfl, fun _ _ => rfl, ?_, ?_⟩
    · rintro a rfl hsp
      simp [faultOf, hsp.ne] at hf
    · rintro rfl hsp
      simp [faultOf, hsp.ne'] at hf
  · refine ⟨hc.stack_eq, hc.sp_eq, ?_, ?_⟩
    · rintro a rfl _
      exact hc.call_stack.2.2
    · rintro rfl _
      exact hc.ret_sp

/-- Settles O20. -/
theorem displayIndexAndTimersChangeOnlyByTheirInstructions :
    Obligations.DisplayIndexAndTimersChangeOnlyByTheirInstructions := by
  intro i s t h
  rcases exec_next_inv h with ⟨f, _, rfl⟩ | ⟨_, hc⟩
  · exact ⟨fun _ _ => rfl, fun _ _ => rfl, fun _ => rfl, fun _ => rfl⟩
  · exact ⟨hc.fb_eq, hc.i_eq, hc.dt_eq, hc.st_eq⟩

/-- Settles O13: a raise keeps `PC`, a completed handler leaves it at `nextPc`. -/
theorem programCounterAfterEachInstruction : Obligations.ProgramCounterAfterEachInstruction := by
  intro i s t h0 h
  rcases exec_next_inv h with ⟨f, _, rfl⟩ | ⟨_, hc⟩
  · exact ⟨fun _ => rfl, fun hf => absurd hf f.code_ne_zero⟩
  · refine ⟨fun hf => absurd (hc.fault_eq.trans h0) hf, fun _ => ?_⟩
    rw [hc.pc_eq]
    cases i <;> rfl

/-! ### Steps and host operations -/

/-- No handler writes a key or the configuration (R23, R34). -/
theorem exec_key_cfg {i : Instr} {s t : State} (h : exec i s = .next t) : t.key = s.key ∧ t.cfg = s.cfg := by
  rcases exec_next_cases h with ⟨f, rfl⟩ | ⟨_, _, hkey, hcfg, _⟩
  · exact ⟨rfl, rfl⟩
  · exact ⟨hkey, hcfg⟩

theorem State.finishStep_key_cfg (s : State) (w : Word) :
    (s.finishStep w).key = s.key ∧ (s.finishStep w).cfg = s.cfg := by
  by_cases hf : s.fault = 0
  · rw [State.finishStep_of_ok hf]
    exact ⟨rfl, rfl⟩
  · rw [State.finishStep_of_fault hf]
    exact ⟨rfl, rfl⟩

theorem step_key_cfg {s t : State} (h : step s = .next t) : t.key = s.key ∧ t.cfg = s.cfg := by
  rcases step_next_cases h with ⟨_, rfl⟩ | ⟨_, _, rfl⟩ | ⟨_, w, u, _, hd, rfl⟩
  · exact ⟨rfl, rfl⟩
  · exact ⟨rfl, rfl⟩
  · rw [(u.finishStep_key_cfg w).1, (u.finishStep_key_cfg w).2]
    rcases dispatch_next_cases hd with ⟨i, _, he⟩ | ⟨_, rfl⟩
    · exact exec_key_cfg he
    · exact ⟨rfl, rfl⟩

theorem stepWith_key_cfg {r : Byte} {s t : State} (h : stepWith r s = .next t) : t.key = s.key ∧ t.cfg = s.cfg := by
  obtain ⟨u, hu, rfl⟩ := stepWith_next_cases h
  obtain ⟨hkey, hcfg⟩ := step_key_cfg hu
  exact ⟨hkey, hcfg⟩

theorem State.load_key_cfg (s : State) (image : List Byte) :
    (s.load image).2.key = s.key ∧ (s.load image).2.cfg = s.cfg := by
  rcases s.load_cases image with ⟨_, he⟩ | ⟨_, he⟩ <;> simp [he]

theorem State.tickTimers_key_cfg (s : State) : s.tickTimers.key = s.key ∧ s.tickTimers.cfg = s.cfg := by
  rcases s.tickTimers_cases with ⟨_, he⟩ | ⟨_, he⟩ <;> simp [he]

/-- Settles O21: of the host's operations only `Initialize` and `SetKeys` write a key. -/
theorem keysAndConfigurationAreFixedDuringSteps : Obligations.KeysAndConfigurationAreFixedDuringSteps := by
  refine ⟨fun s t h => step_key_cfg h, fun o s t h => ?_⟩
  rcases hostOp_next_cases h with ⟨rfl, rfl⟩ | ⟨image, _, rfl⟩ | ⟨r, _, hr⟩ | ⟨k, rfl, rfl⟩ | ⟨_, rfl⟩ | ⟨_, _, rfl⟩
  · exact ⟨rfl, fun hne => absurd rfl hne⟩
  · exact ⟨(s.load_key_cfg image).2, fun _ _ => (s.load_key_cfg image).1⟩
  · exact ⟨(stepWith_key_cfg hr).2, fun _ _ => (stepWith_key_cfg hr).1⟩
  · exact ⟨rfl, fun _ hne => absurd rfl (hne k)⟩
  · exact ⟨rfl, fun _ _ => rfl⟩
  · exact ⟨s.tickTimers_key_cfg.2, fun _ _ => s.tickTimers_key_cfg.1⟩

end Sys2Proof.Machine
end

section
/-!
Reset, the byte of `Step(rnd)`, and the operations on keys and timers (spec/10_state.md R27 to R32).
-/

namespace Sys2Proof.Machine

/-- A step whose fetched word decodes to an instruction runs it and ends the step (spec/40_step_cycle.md R65). -/
theorem step_of_decoded {s t : State} {i : Instr} (h0 : s.fault = 0) (hpc : s.pc.toNat ≤ 4094)
    (hd : decodeWord (wordOfBytes (s.readByte s.pc.toNat) (s.readByte (s.pc.toNat + 1))) = .instr i)
    (he : exec i s = .next t) :
    step s = .next (t.finishStep (wordOfBytes (s.readByte s.pc.toNat) (s.readByte (s.pc.toNat + 1)))) := by
  have hh : ¬ s.halted = true := fun hc => (State.halted_iff s).mp hc h0
  simp only [step, cycle, if_neg hh, State.fetch_of_le hpc, dispatch, hd, he]

/-- The converse of `stepWith_next_cases`. -/
theorem stepWith_of_step {r : Byte} {s u : State} (h : step { s with rndIn := [r] } = .next u) :
    stepWith r s = .next { u with rndIn := s.rndIn } := by
  simp only [stepWith, h]

/-- A step that runs `RND` masks the random byte offered to it (spec/46_random.md R120). -/
theorem step_of_decoded_rnd {s : State} {x : Reg} {nn : Byte} (h0 : s.fault = 0) (hpc : s.pc.toNat ≤ 4094)
    (hd : decodeWord (wordOfBytes (s.readByte s.pc.toNat) (s.readByte (s.pc.toNat + 1))) = .instr (.rnd x nn)) :
    ∃ t, step s = .next t ∧ t.getV x = s.rndByte &&& nn ∧ t.pc = s.pc + 2 := by
  have hf : (s.advancePc.setV x (s.rndByte &&& nn)).fault = 0 := h0
  refine ⟨_, step_of_decoded h0 hpc hd rfl, ?_⟩
  rw [State.finishStep_of_ok hf]
  exact ⟨State.getV_setV_self _ x _, rfl⟩

/-- Settles O45: the step runs on the state with the one byte supplied, and `RND` reads that byte. -/
theorem hostByteIsTheOneRndReceives : Obligations.HostByteIsTheOneRndReceives := by
  intro s r x nn h0 hpc hd
  obtain ⟨t, ht, hv, hp⟩ := step_of_decoded_rnd (s := { s with rndIn := [r] }) h0 hpc hd
  exact ⟨_, stepWith_of_step ht, hv, hp, rfl⟩

/-! ### Memory after reset -/

theorem Memory.unlisted_font (c : Config) (j : Fin 80) :
    Memory.unlisted c (c.fontBase.toNat + j.val) = c.fontTable[j.val] := by
  simp [Memory.unlisted]

theorem Memory.unlisted_outside {c : Config} {a : Nat} (h : a < c.fontBase.toNat ∨ c.fontBase.toNat + 80 ≤ a) :
    Memory.unlisted c a = 0 :=
  dif_neg (by omega)

/-- Settles O56. -/
theorem resetStateIsTheTableOfInitialValues : Obligations.ResetStateIsTheTableOfInitialValues := by
  refine ⟨rfl, ?_⟩
  rintro c s _ rfl
  refine ⟨State.initial_getV c, rfl, rfl, State.initial_stack c, rfl, rfl, rfl, rfl, rfl, ?_, ?_, ?_, ?_⟩
  · intro j
    simp
  · exact Framebuffer.pixel_dark
  · exact Memory.unlisted_font c
  · exact fun a => Memory.unlisted_outside

/-! ### Keys and timers -/

theorem countDown_eq (b : Byte) : countDown b = if b = 0 then 0 else b - 1 := by
  by_cases h : b = 0
  · rw [if_pos h, h, countDown_zero]
  · rw [if_neg h, countDown_of_ne_zero h]

/-- Settles O59: `TickTimers` counts each timer down once, unless the machine is halted. -/
theorem keyAndTimerOperationsDoOnlyTheirOwn : Obligations.KeyAndTimerOperationsDoOnlyTheirOwn := by
  intro s k
  refine ⟨rfl, rfl, rfl, fun hx hf => ?_, fun hx hf => ?_⟩
  all_goals rcases s.tickTimers_cases with ⟨h, he⟩ | ⟨h, he⟩
  · rw [hostOp, if_pos hx, he]
  · exact absurd h hf
  · exact absurd hf h
  · rw [hostOp, if_pos hx, he, ← countDown_eq, ← countDown_eq]
    rfl

end Sys2Proof.Machine
end

section
/-!
Memory (spec/20_memory.md): which handlers write it, what a fetch reads after `LD [I]`, and that the canonical form is one
for one.
-/

namespace Sys2Proof.Machine

/-! ### Who writes memory -/

theorem Completes.mem_eq {i : Instr} {s t : State} (h : Completes s i t)
    (hi : ∀ x, i ≠ .ldBVx x ∧ i ≠ .ldMemVx x) : t.mem = s.mem := by
  cases h with
  | storesDigits x hr => exact absurd rfl (hi x).1
  | storesRegs x hr => exact absurd rfl (hi x).2
  | _ => simp

/-- A byte is read from the cells and the configuration alone. -/
theorem KeepsMemory.of_mem_cfg {s t : State} (hmem : t.mem = s.mem) (hcfg : t.cfg = s.cfg) : KeepsMemory s t := by
  intro a
  rw [State.readByte, hmem, hcfg, State.readByte]

/-- Settles O18: a raise keeps memory and the configuration, and so does a completed handler that is no store. -/
theorem onlyTheTwoStoresChangeMemory : Obligations.OnlyTheTwoStoresChangeMemory := by
  intro i s t h hi
  rcases exec_next_inv h with ⟨f, _, rfl⟩ | ⟨_, hc⟩
  · exact .of_mem_cfg rfl rfl
  · exact .of_mem_cfg (hc.mem_eq hi) hc.cfg_eq

/-! ### The store of registers (spec/45_memory_index.md R114) -/

/-- The state `LD [I], Vx` leaves when its bytes all exist. -/
def State.storeRegs (s : State) (x : Reg) : State :=
  s.advancePc.writeBytes (s.dataAddress 0) ((regsUpTo x).map s.getV)

theorem exec_ldMemVx_of_le {s : State} {x : Reg} (hx : s.dataAddress x.val ≤ 4095) :
    exec (.ldMemVx x) s = .next (s.storeRegs x) :=
  if_pos ((State.dataInRange_iff s _).mpr (.inr (Nat.succ_le_succ hx)))

theorem regsUpTo_map_getD (s : State) {x r : Reg} (hr : r ≤ x) : ((regsUpTo x).map s.getV).getD r.val 0 = s.getV r := by
  have hlen : r.val < (regsUpTo x).length := by
    rw [regsUpTo_length]
    exact Nat.lt_succ_of_le hr
  have hreg : (regsUpTo x)[r.val] = r := by
    rw [← List.getD_eq_getElem _ 0 hlen]
    exact regsUpTo_getD x r.val hr
  simp [List.getD_eq_getElem?_getD, List.getElem?_eq_getElem hlen, hreg]

/-- Each stored register stands at its own effective address. -/
theorem State.storeRegs_readByte {s : State} (hm : Memory.wf s.cfg s.mem) {x r : Reg}
    (hx : s.dataAddress x.val ≤ 4095) (hr : r ≤ x) : (s.storeRegs x).readByte (s.dataAddress r.val) = s.getV r := by
  have hlen : ((regsUpTo x).map s.getV).length = x.val + 1 := by simp [regsUpTo_length]
  have hrx : r.val ≤ x.val := hr
  simp only [State.dataAddress] at hx
  rw [State.storeRegs, State.readByte_writeBytes (s := s.advancePc) hm (by simp only [State.dataAddress]; omega),
    if_pos (by simp only [State.dataAddress]; omega)]
  simp only [State.dataAddress, Nat.add_zero, Nat.add_sub_cancel_left]
  exact regsUpTo_map_getD s hr

/-- With `PC` set to an address that holds a whole word, the fetch reads its two bytes (spec/40_step_cycle.md R66). -/
theorem State.fetch_setPc_ofNat (s : State) {a : Nat} (ha : a ≤ 4094) :
    (s.setPc (BitVec.ofNat 16 a)).fetch = some (wordOfBytes (s.readByte a) (s.readByte (a + 1))) := by
  have hpc : (s.setPc (BitVec.ofNat 16 a)).pc.toNat = a := Nat.mod_eq_of_lt (by omega)
  rw [State.fetch_of_le (by omega), hpc]
  rfl

/-- Settles O42: registers `k` and `k + 1` are both stored, at neighbouring addresses. -/
theorem storedBytesAreFetchedAtOnce : Obligations.StoredBytesAreFetchedAtOnce := by
  intro x k s hm hx hk
  have hkx : k.val < x.val := hk
  have hsucc : (k + 1).val = k.val + 1 := Fin.val_add_one_of_lt' (by omega)
  have hlast : s.dataAddress k.val ≤ 4094 := by simp only [State.dataAddress] at hx ⊢; omega
  have hnext : s.dataAddress k.val + 1 = s.dataAddress (k + 1).val := by rw [hsucc]; rfl
  refine ⟨_, exec_ldMemVx_of_le hx, ?_⟩
  rw [State.fetch_setPc_ofNat _ hlast, State.storeRegs_readByte hm hx hk.le, hnext,
    State.storeRegs_readByte hm hx (Fin.le_def.mpr (by omega))]

/-! ### The canonical form -/

/-- On rising addresses the search finds exactly the listed cells. -/
theorem Memory.find_eq_some_iff {m : Memory} (h : m.Pairwise (fun p q => p.1 < q.1)) (a : Nat) (b : Byte) :
    Memory.find a m = some b ↔ (a, b) ∈ m := by
  induction m with
  | nil => simp [Memory.find]
  | cons p m ih =>
    obtain ⟨k, d⟩ := p
    obtain ⟨hk, hm⟩ := List.pairwise_cons.mp h
    by_cases ha : a = k
    · subst ha
      have hout : (a, b) ∉ m := fun hmem => lt_irrefl a (hk _ hmem)
      simp [Memory.find, hout, eq_comm]
    · simp [Memory.find, ha, ih hm]

/-- A canonical memory lists exactly the cells that read as something else than an unlisted address does. -/
theorem Memory.mem_iff_read {c : Config} {m : Memory} (h : Memory.wf c m) (a : Nat) (b : Byte) :
    (a, b) ∈ m ↔ Memory.read c m a = b ∧ b ≠ Memory.unlisted c a := by
  rw [← Memory.find_eq_some_iff h.1, Memory.read]
  cases hf : Memory.find a m with
  | none => simpa using fun e : Memory.unlisted c a = b => e.symm
  | some d =>
    have hd : d ≠ Memory.unlisted c a := (h.2 _ ((Memory.find_eq_some_iff h.1 a d).mp hf)).2
    simpa using fun e : d = b => e ▸ hd

/-- Settles O43: both lists hold the same cells, and a rising list is fixed by what it holds. -/
theorem equalMemoriesAreEqualData : Obligations.EqualMemoriesAreEqualData := by
  intro c m n hm hn hread
  have hirrefl : Std.Irrefl (fun p q : Host.Cell => p.1 < q.1) := ⟨fun p => lt_irrefl p.1⟩
  have hantisymm : Std.Antisymm (fun p q : Host.Cell => p.1 < q.1) := ⟨fun p q hpq hqp => absurd hqp hpq.asymm⟩
  refine hm.1.eq_of_mem_iff hn.1 fun ⟨a, b⟩ => ?_
  rw [Memory.mem_iff_read hm, Memory.mem_iff_read hn, hread]

end Sys2Proof.Machine
end

section
/-!
Decoding and encoding (spec/30_encoding.md): what a word decodes to, R53 to R58 in one lemma, and from it the two round
trips, the unrecognised words and the rows of the opcode table.
-/

namespace Sys2Proof

/-! ### A word from its own fields, but for the bits its instruction ignores -/

theorem and_not_zero (w : Word) : w &&& ~~~ 0x0000 = w := by
  rw [BitVec.ofNat_eq_ofNat, BitVec.not_zero, BitVec.and_allOnes]

section
variable {w : Word} {fam : BitVec 4}

theorem wordNNN_of_fields (hf : (fieldFam w).toNat = fam.toNat) : wordNNN fam (fieldNNN w) = w &&& ~~~ 0x0000 := by
  apply BitVec.eq_of_toNat_eq
  rw [wordNNN_toNat, ← hf, fieldFam_toNat, fieldNNN_toNat, and_not_zero]
  omega

theorem wordXNN_of_fields {nn : Byte} (hf : (fieldFam w).toNat = fam.toNat) (hn : fieldNN w = nn) :
    wordXNN fam (fieldX w) nn = w &&& ~~~ 0x0000 := by
  apply BitVec.eq_of_toNat_eq
  rw [wordXNN_toNat, ← hf, ← hn, fieldFam_toNat, fieldX_val, fieldNN_toNat, and_not_zero]
  omega

theorem wordXYN_of_fields {n : Fin 16} (hf : (fieldFam w).toNat = fam.toNat) (hn : (fieldN w).val = n.val) :
    wordXYN fam (fieldX w) (fieldY w) n = w &&& ~~~ 0x0000 := by
  apply BitVec.eq_of_toNat_eq
  rw [wordXYN_toNat, ← hf, ← hn, fieldFam_toNat, fieldX_val, fieldY_val, fieldN_val, and_not_zero]
  omega

/-- Family 0 ignores `X` (R59). -/
theorem wordXNN_zero_of_fields {nn : Byte} (hf : (fieldFam w).toNat = fam.toNat) (hn : fieldNN w = nn) :
    wordXNN fam 0 nn = w &&& ~~~ 0x0F00 := by
  apply BitVec.eq_of_toNat_eq
  rw [wordXNN_toNat, ← hf, ← hn, fieldFam_toNat, fieldNN_toNat, show (~~~ 0x0F00 : Word) = 0xF0FF by decide,
    and_F0FF_toNat]
  simp

/-- Families 5 and 9 ignore `N` (R59). -/
theorem wordXYN_zero_of_fields (hf : (fieldFam w).toNat = fam.toNat) :
    wordXYN fam (fieldX w) (fieldY w) 0 = w &&& ~~~ 0x000F := by
  have hsum : w.toNat = (w &&& ~~~ 0x000F).toNat + w.toNat % 16 := by
    rw [← and_000F_toNat, ← and_disjoint_masks _ _ _ (by decide),
      show (~~~ 0x000F ||| 0x000F : Word) = BitVec.allOnes 16 by decide, BitVec.and_allOnes]
  apply BitVec.eq_of_toNat_eq
  rw [wordXYN_toNat, ← hf, fieldFam_toNat, fieldX_val, fieldY_val]
  simp only [Fin.val_zero]
  omega

end

/-! ### What a word decodes to -/

/-- The four lists of R58. -/
def Unlisted (w : Word) : Prop :=
  (w.toNat / 4096 = 0x0 ∧ w.toNat % 256 ∉ [0xE0, 0xEE]) ∨
  (w.toNat / 4096 = 0x8 ∧ w.toNat % 16 ∈ [0x8, 0x9, 0xA, 0xB, 0xC, 0xD, 0xF]) ∨
  (w.toNat / 4096 = 0xE ∧ w.toNat % 256 ∉ [0x9E, 0xA1]) ∨
  (w.toNat / 4096 = 0xF ∧ w.toNat % 256 ∉ [0x07, 0x0A, 0x15, 0x18, 0x1E, 0x29, 0x33, 0x55, 0x65])

/-- The answers R53 to R59 leave for a word: an instruction whose canonical word it is but for ignored bits, or the word
itself, unrecognised. -/
inductive DecodesTo (w : Word) : Decoded → Prop where
  | instr (i : Instr) (h : encode i = w &&& ~~~ i.ignoredBits) : DecodesTo w (.instr i)
  | unrecognised (h : Unlisted w) : DecodesTo w (.unrecognised w)

section
variable {w : Word}

theorem low_byte_not_mem {bs : List Byte} (h : ∀ b ∈ bs, fieldNN w ≠ b) :
    w.toNat % 256 ∉ bs.map BitVec.toNat := by
  rw [← fieldNN_toNat]
  intro hm
  obtain ⟨b, hb, he⟩ := List.mem_map.mp hm
  exact h b hb (BitVec.eq_of_toNat_eq he.symm)

theorem decodeFamily0_decodesTo (hf : (fieldFam w).toNat = 0x0) : DecodesTo w (decodeFamily0 w) := by
  unfold decodeFamily0
  split
  next hn => exact .instr _ (wordXNN_zero_of_fields hf hn)
  next hn => exact .instr _ (wordXNN_zero_of_fields hf hn)
  next h1 h2 =>
    have hlow := low_byte_not_mem (w := w) (bs := [0xE0, 0xEE]) (by simpa using And.intro h1 h2)
    exact .unrecognised (.inl ⟨fieldFam_toNat w ▸ hf, hlow⟩)

theorem decodeFamily8_decodesTo (hf : (fieldFam w).toNat = 0x8) : DecodesTo w (decodeFamily8 w) := by
  unfold decodeFamily8
  split
  case h_10 =>
    refine .unrecognised (.inr (.inl ⟨fieldFam_toNat w ▸ hf, ?_⟩))
    rw [← fieldN_val]
    simp only [List.mem_cons, List.not_mem_nil, imp_false] at *
    omega
  all_goals next hn => exact .instr _ (wordXYN_of_fields hf hn)

theorem decodeFamilyE_decodesTo (hf : (fieldFam w).toNat = 0xE) : DecodesTo w (decodeFamilyE w) := by
  unfold decodeFamilyE
  split
  next hn => exact .instr _ (wordXNN_of_fields hf hn)
  next hn => exact .instr _ (wordXNN_of_fields hf hn)
  next h1 h2 =>
    have hlow := low_byte_not_mem (w := w) (bs := [0x9E, 0xA1]) (by simpa using And.intro h1 h2)
    exact .unrecognised (.inr (.inr (.inl ⟨fieldFam_toNat w ▸ hf, hlow⟩)))

theorem decodeFamilyF_decodesTo (hf : (fieldFam w).toNat = 0xF) : DecodesTo w (decodeFamilyF w) := by
  unfold decodeFamilyF
  split
  case h_10 h1 h2 h3 h4 h5 h6 h7 h8 h9 =>
    have hlow := low_byte_not_mem (w := w) (bs := [0x07, 0x0A, 0x15, 0x18, 0x1E, 0x29, 0x33, 0x55, 0x65])
      (by simpa using ⟨h1, h2, h3, h4, h5, h6, h7, h8, h9⟩)
    exact .unrecognised (.inr (.inr (.inr ⟨fieldFam_toNat w ▸ hf, hlow⟩)))
  all_goals next hn => exact .instr _ (wordXNN_of_fields hf hn)

/-- R53 to R59 in one lemma: what decoding a word can answer. -/
theorem decodeWord_decodesTo (w : Word) : DecodesTo w (decodeWord w) := by
  unfold decodeWord
  split
  next hf => exact decodeFamily0_decodesTo hf
  next hf => exact .instr _ (wordNNN_of_fields hf)
  next hf => exact .instr _ (wordNNN_of_fields hf)
  next hf => exact .instr _ (wordXNN_of_fields hf rfl)
  next hf => exact .instr _ (wordXNN_of_fields hf rfl)
  next hf => exact .instr _ (wordXYN_zero_of_fields hf)
  next hf => exact .instr _ (wordXNN_of_fields hf rfl)
  next hf => exact .instr _ (wordXNN_of_fields hf rfl)
  next hf => exact decodeFamily8_decodesTo hf
  next hf => exact .instr _ (wordXYN_zero_of_fields hf)
  next hf => exact .instr _ (wordNNN_of_fields hf)
  next hf => exact .instr _ (wordNNN_of_fields hf)
  next hf => exact .instr _ (wordXNN_of_fields hf rfl)
  next hf => exact .instr _ (wordXYN_of_fields hf rfl)
  next hf => exact decodeFamilyE_decodesTo hf
  next =>
    simp only [imp_false] at *
    exact decodeFamilyF_decodesTo (by omega)

end

/-- Settles O2: the instruction `decodeWord` answers is one of `DecodesTo`. -/
theorem encodeOfDecodeClearsOnlyIgnoredBits : Obligations.EncodeOfDecodeClearsOnlyIgnoredBits := by
  intro w i hd
  have h := decodeWord_decodesTo w
  rw [hd] at h
  cases h with
  | instr _ h => exact h

/-! ### Decoding what the encoder assembles -/

theorem decodeWord_encode (i : Instr) : decodeWord (encode i) = .instr i := by
  cases i with
  | cls | ret => rfl
  | jp | call | ldI | jpV0 => simp [encode, decodeWord, fieldFam_wordNNN, fieldNNN_wordNNN]
  | seImm | sneImm | ldImm | addImm | rnd =>
    simp [encode, decodeWord, fieldFam_wordXNN, fieldX_wordXNN, fieldNN_wordXNN]
  | seReg | sneReg | drw =>
    simp [encode, decodeWord, fieldFam_wordXYN, fieldX_wordXYN, fieldY_wordXYN, fieldN_wordXYN]
  | ldReg | orReg | andReg | xorReg | addReg | sub | shr | subn | shl =>
    simp [encode, decodeWord, decodeFamily8, fieldFam_wordXYN, fieldX_wordXYN, fieldY_wordXYN, fieldN_wordXYN]
  | skp | sknp => simp [encode, decodeWord, decodeFamilyE, fieldFam_wordXNN, fieldX_wordXNN, fieldNN_wordXNN]
  | ldVxDt | ldVxK | ldDtVx | ldStVx | addIVx | ldFVx | ldBVx | ldMemVx | ldVxMem =>
    simp [encode, decodeWord, decodeFamilyF, fieldFam_wordXNN, fieldX_wordXNN, fieldNN_wordXNN]

/-- Settles O1: as bytes too, for a word is its two bytes. -/
theorem decodeOfEncodeGivesTheInstruction : Obligations.DecodeOfEncodeGivesTheInstruction := by
  intro i rest _
  refine ⟨decodeWord_encode i, ?_⟩
  simp only [encodeBytes, List.cons_append, List.nil_append, decodeBytes, wordOfBytes_bytes, decodeWord_encode]

/-! ### Rows of the opcode table -/

theorem Instr.row_mem_opcodeTable (i : Instr) : i.row ∈ opcodeTable := by
  cases i <;> simp [Instr.row, opcodeTable]

/-- No row examines a bit that its instruction ignores. -/
theorem Instr.not_ignoredBits_and_mask (i : Instr) : ~~~ i.ignoredBits &&& i.row.mask = i.row.mask := by
  cases i <;> (simp only [Instr.ignoredBits, Instr.row]; decide)

open Laws.EncodesRow in
theorem Instr.row_hits_encode (i : Instr) : i.row.hits (encode i) = true := by
  cases i with
  | cls | ret => exact hits_low_byte _ _ _
  | jp a | call a | ldI a | jpV0 a => exact hits_nnn _ a
  | seImm x b | sneImm x b | ldImm x b | addImm x b | rnd x b => exact hits_xnn _ x b
  | seReg x y | sneReg x y => exact hits_xyn _ x y 0
  | drw x y n => exact hits_xyn _ x y n
  | ldReg x y | orReg x y | andReg x y | xorReg x y | addReg x y | sub x y | shr x y | subn x y | shl x y =>
    exact hits_low_nibble _ x y _
  | skp x | sknp x => exact hits_low_byte _ x _
  | ldVxDt x | ldVxK x | ldDtVx x | ldStVx x | addIVx x | ldFVx x | ldBVx x | ldMemVx x | ldVxMem x =>
    exact hits_low_byte _ x _

/-- A word is in its instruction's row because the canonical word is, and the row sees no other bit. -/
theorem row_hits_of_decodeWord {w : Word} {i : Instr} (h : decodeWord w = .instr i) : i.row.hits w = true := by
  have henc : encode i &&& i.row.mask = i.row.value := by simpa [OpcodeRow.hits] using i.row_hits_encode
  rwa [encodeOfDecodeClearsOnlyIgnoredBits w i h, BitVec.and_assoc, i.not_ignoredBits_and_mask, ← beq_iff_eq] at henc

/-- Any two rows of the table ask for different values in the bits both examine. -/
theorem opcodeTable_eq_of_common_bits :
    ∀ r ∈ opcodeTable, ∀ q ∈ opcodeTable, r.value &&& q.mask = q.value &&& r.mask → r = q := by
  decide

theorem opcodeTable_eq_of_hits {w : Word} {r q : OpcodeRow} (hr : r ∈ opcodeTable) (hq : q ∈ opcodeTable)
    (hrw : r.hits w = true) (hqw : q.hits w = true) : r = q := by
  rw [OpcodeRow.hits, beq_iff_eq] at hrw hqw
  apply opcodeTable_eq_of_common_bits r hr q hq
  rw [← hrw, ← hqw]
  ac_rfl

/-- R53 to R57: a row examines the family nibble, in family 8 also the low nibble, in families 0, E and F the low
byte. -/
theorem opcodeTable_masks : ∀ r ∈ opcodeTable,
    (r.mask = 0xF000 ∧ r.value.toNat / 4096 ∉ [0x0, 0x8, 0xE, 0xF]) ∨
    (r.mask = 0xF00F ∧ r.value.toNat / 4096 = 0x8) ∨
    (r.mask = 0xF0FF ∧ r.value.toNat / 4096 ≠ 0x8) := by
  decide

theorem opcodeTable_values_listed : ∀ r ∈ opcodeTable, ¬ Unlisted r.value := by
  unfold Unlisted
  decide

/-- The lists of R58 look only at bits that the rows of the word's family examine. -/
theorem not_unlisted_of_hits {w : Word} {r : OpcodeRow} (hr : r ∈ opcodeTable) (h : r.hits w = true) :
    ¬ Unlisted w := by
  rw [OpcodeRow.hits, beq_iff_eq] at h
  intro hu
  apply opcodeTable_values_listed r hr
  rcases opcodeTable_masks r hr with ⟨hm, hf⟩ | ⟨hm, hf⟩ | ⟨hm, hf⟩
  · have hfam : r.value.toNat / 4096 = w.toNat / 4096 := by rw [← h, hm, and_F000_toNat]; omega
    simp only [hfam, List.mem_cons, List.not_mem_nil] at hf
    unfold Unlisted at hu
    omega
  · have hfam : r.value.toNat / 4096 = w.toNat / 4096 := by rw [← h, hm, and_F00F_toNat]; omega
    have hlow : r.value.toNat % 16 = w.toNat % 16 := by rw [← h, hm, and_F00F_toNat]; omega
    simpa [Unlisted, hlow, hf, hfam ▸ hf] using hu
  · have hfam : r.value.toNat / 4096 = w.toNat / 4096 := by rw [← h, hm, and_F0FF_toNat]; omega
    have hlow : r.value.toNat % 256 = w.toNat % 256 := by rw [← h, hm, and_F0FF_toNat]; omega
    simpa [Unlisted, hfam, hlow, hfam ▸ hf] using hu

theorem decodeWord_unrecognised_iff (w : Word) : decodeWord w = .unrecognised w ↔ Unlisted w := by
  have h := decodeWord_decodesTo w
  generalize hd : decodeWord w = d at h
  cases h with
  | instr i _ => simpa using not_unlisted_of_hits i.row_mem_opcodeTable (row_hits_of_decodeWord hd)
  | unrecognised h => simpa using h

theorem decodeWord_total (w : Word) : (∃ i, decodeWord w = .instr i) ∨ decodeWord w = .unrecognised w := by
  have h := decodeWord_decodesTo w
  generalize decodeWord w = d at h
  cases h with
  | instr i _ => exact .inl ⟨i, rfl⟩
  | unrecognised _ => exact .inr rfl

/-- Settles O3: an instruction's word is in its row, and no word of a row is listed. -/
theorem unrecognisedWordsAreExactlyThoseListed : Obligations.UnrecognisedWordsAreExactlyThoseListed :=
  fun w => ⟨decodeWord_total w, decodeWord_unrecognised_iff w⟩

/-- Settles O4: a word in a row is not unrecognised, and the row of what it decodes to is the one row it is in. -/
theorem everyWordMatchesOnlyTheRowItDecodesTo : Obligations.EveryWordMatchesOnlyTheRowItDecodesTo := by
  refine ⟨rfl, fun w r q => opcodeTable_eq_of_hits,
    fun w i hd => ⟨i.row_mem_opcodeTable, row_hits_of_decodeWord hd⟩, fun w r hr hrw => ?_⟩
  rcases decodeWord_total w with ⟨i, hd⟩ | hd
  · exact ⟨i, hd, opcodeTable_eq_of_hits i.row_mem_opcodeTable hr (row_hits_of_decodeWord hd) hrw⟩
  · exact absurd ((decodeWord_unrecognised_iff w).mp hd) (not_unlisted_of_hits hr hrw)

/-- Settles O5, by running the decoder on the 36 words. -/
theorem sampleWordsDecodeAsListed : Obligations.SampleWordsDecodeAsListed := by
  unfold Obligations.SampleWordsDecodeAsListed
  decide

end Sys2Proof
end

section
/-!
The step cycle (spec/40_step_cycle.md R65 to R78): one equation of `step` per way a step can end, the inversion of a step
that completes, and the word the next step fetches.
-/

namespace Sys2Proof.Machine

/-! ### The ways a step can end -/

/-- While `FAULT` is not 0 a step does nothing (R78). -/
theorem step_of_fault {s : State} (h : s.fault ≠ 0) : step s = .next s :=
  if_pos ((State.halted_iff s).mpr h)

/-- A fetch past memory raises and ends the step (R66). -/
theorem step_of_fetch_none {s : State} (h0 : s.fault = 0) (hf : s.fetch = none) :
    step s = .next (s.raise .fetchRange) := by
  have hh : ¬ s.halted = true := fun hc => (State.halted_iff s).mp hc h0
  simp only [step, cycle, if_neg hh, hf]

/-- A step that fetches a word dispatches it, then ends the step (R65). -/
theorem step_of_dispatch {s t : State} {w : Word} (h0 : s.fault = 0) (hf : s.fetch = some w)
    (hd : dispatch w s = .next t) : step s = .next (t.finishStep w) := by
  have hh : ¬ s.halted = true := fun hc => (State.halted_iff s).mp hc h0
  simp only [step, cycle, if_neg hh, hf, hd]

/-- The handler of an unrecognised word advances `PC` (R75). -/
theorem dispatch_of_unrecognised {w : Word} (hd : decodeWord w = .unrecognised w) (s : State) :
    dispatch w s = .next s.advancePc := by
  rw [dispatch, hd]
  rfl

/-- The end of a completed step, its tick said in the words of R76 and R77. -/
theorem State.finishStep_ticked {t : State} (h : t.fault = 0) (w : Word) :
    t.finishStep w = { t with
      ir := w, rndIn := t.rndIn.tail, draws := t.draws + 1,
      dt := tickedTimer t.cfg t.dt, st := tickedTimer t.cfg t.st } := by
  simp only [State.finishStep_of_ok h, countDown_eq, tickedTimer]

theorem State.finishStep_fault (t : State) (w : Word) : (t.finishStep w).fault = t.fault := by
  by_cases h : t.fault = 0
  · rw [State.finishStep_ticked h]
  · rw [State.finishStep_of_fault h]

/-- The inversion of a step that completes: it dispatched the word it fetched, and its handler raised nothing. -/
theorem step_completes_inv {s t : State} (h0 : s.fault = 0) (h : step s = .next t) (ht : t.fault = 0) :
    ∃ w u, s.fetch = some w ∧ dispatch w s = .next u ∧ u.fault = 0 ∧ t = u.finishStep w := by
  rcases step_next_cases h with ⟨hne, _⟩ | ⟨_, _, rfl⟩ | ⟨_, w, u, hf, hd, rfl⟩
  · exact absurd h0 hne
  · exact absurd ht (Fault.code_ne_zero .fetchRange)
  · exact ⟨w, u, hf, hd, (u.finishStep_fault w).symm.trans ht, rfl⟩

/-- What a dispatched word leaves of the timers and of the configuration that rules their tick: the handler writes a timer
only where it is the instruction that sets it. -/
theorem dispatch_timers {w : Word} {s u : State} (h : dispatch w s = .next u) :
    u.cfg = s.cfg ∧ ((∀ x, decodeWord w ≠ .instr (.ldDtVx x)) → u.dt = s.dt) ∧
      ((∀ x, decodeWord w ≠ .instr (.ldStVx x)) → u.st = s.st) := by
  rcases dispatch_next_cases h with ⟨i, hi, he⟩ | ⟨_, rfl⟩
  · obtain ⟨_, _, hdt, hst⟩ := displayIndexAndTimersChangeOnlyByTheirInstructions i s u he
    refine ⟨(exec_key_cfg he).2, fun hd => hdt fun x hx => ?_, fun hs => hst fun x hx => ?_⟩
    · exact hd x (hx ▸ hi)
    · exact hs x (hx ▸ hi)
  · exact ⟨rfl, fun _ => rfl, fun _ => rfl⟩

/-- Settles O55: the handler keeps each timer it does not set, and the end of the step ticks it. -/
theorem everyCompletedStepTicksBothTimers : Obligations.EveryCompletedStepTicksBothTimers := by
  rintro s t d h0 h ht rfl
  obtain ⟨w, u, hf, hd, hu, rfl⟩ := step_completes_inv h0 h ht
  obtain ⟨_, rfl⟩ := State.fetch_eq_some hf
  obtain ⟨hcfg, hdt, hst⟩ := dispatch_timers hd
  rw [State.finishStep_ticked hu, ← hcfg]
  exact ⟨fun hne => congrArg (tickedTimer u.cfg) (hdt hne), fun hne => congrArg (tickedTimer u.cfg) (hst hne)⟩

/-- Settles O6: a step whose handler raised ends there, any other ends with the word in `IR` and the tick. -/
theorem stepRunsTheDecodedInstruction : Obligations.StepRunsTheDecodedInstruction := by
  intro s t i h0 hpc hb _ he
  have hd : decodeWord (wordOfBytes (s.readByte s.pc.toNat) (s.readByte (s.pc.toNat + 1))) = .instr i :=
    congrArg Prod.fst hb
  rw [step_of_decoded h0 hpc hd he]
  exact ⟨fun hf => by rw [State.finishStep_of_fault hf], fun hf => by rw [State.finishStep_ticked hf]⟩

/-- Settles O7: the handler advances `PC`, the end of the step does the rest. -/
theorem unrecognisedWordOnlyAdvancesAndTicks : Obligations.UnrecognisedWordOnlyAdvancesAndTicks := by
  rintro s w h0 hpc rfl hd
  have hadv : s.advancePc.fault = 0 := h0
  rw [step_of_dispatch h0 (State.fetch_of_le hpc) (dispatch_of_unrecognised hd s), State.finishStep_ticked hadv]
  rfl

/-- Settles O8: the halted check comes before the fetch. -/
theorem haltedStepChangesNothing : Obligations.HaltedStepChangesNothing :=
  fun _ => step_of_fault

/-- Settles O9: the two bytes of the fetched word, and the word a completed step fetched is the one it keeps. -/
theorem fetchReadsTheBigEndianWordAtPc : Obligations.FetchReadsTheBigEndianWordAtPc := by
  intro s h0
  refine ⟨fun hpc => ?_, fun hpc => ?_⟩
  · refine ⟨_, State.fetch_of_le hpc, highByte_wordOfBytes _ _, lowByte_wordOfBytes _ _, fun t h ht => ?_⟩
    obtain ⟨w, u, hf, _, hu, rfl⟩ := step_completes_inv h0 h ht
    rw [State.finishStep_ticked hu]
    exact (State.fetch_eq_some hf).2
  · have hf := State.fetch_eq_none.mpr hpc
    exact ⟨hf, step_of_fetch_none h0 hf⟩

/-! ### A placed word (log 12) -/

/-- The bits of a word, cut to 16, are the word. -/
theorem ofNat_toNat_mod (w : Word) : BitVec.ofNat 16 (w.toNat % 2 ^ 16) = w := by
  rw [Nat.mod_eq_of_lt w.isLt, BitVec.ofNat_toNat, BitVec.setWidth_eq]

theorem State.withFetchWord_toNat (s : State) (w : Word) : s.withFetchWord 16 w.toNat = s.placeWord w :=
  congrArg s.placeWord (ofNat_toNat_mod w)

/-- With the two bytes of a word stored at a `PC` in memory, that word is fetched (R66). -/
theorem State.fetch_writeBytes_pc {s : State} (hm : Memory.wf s.cfg s.mem) (hpc : s.pc.toNat ≤ 4094) (w : Word) :
    (s.writeBytes s.pc.toNat [highByte w, lowByte w]).fetch = some w := by
  have hr : s.pc.toNat + [highByte w, lowByte w].length ≤ 4096 := by simpa using hpc
  rw [State.fetch_of_le (by simpa using hpc), State.writeBytes_pc, State.readByte_writeBytes hm hr,
    State.readByte_writeBytes hm hr]
  simp [wordOfBytes_bytes]

theorem State.placeWord_fetch {s : State} (hm : Memory.wf s.cfg s.mem) (w : Word) :
    (s.placeWord w).fetch = some w := by
  have hpc : (if s.pc.toNat > 4094 then 0 else s.pc).toNat ≤ 4094 := by
    split
    · decide
    · omega
  exact State.fetch_writeBytes_pc (s := { s with fault := 0, pc := if s.pc.toNat > 4094 then 0 else s.pc }) hm hpc w

theorem State.placeWord_fault (s : State) (w : Word) : (s.placeWord w).fault = 0 := State.writeBytes_fault _ _ _

/-- The table decoder, given all 16 bits of a word, reads what the machine's decoder reads. -/
theorem decodeTableWord_toNat_iff (w : Word) (i : Instr) :
    decodeTableWord 16 w.toNat = some i ↔ decodeWord w = .instr i := by
  simp only [decodeTableWord, ofNat_toNat_mod, decodeBytes, wordOfBytes_bytes]
  cases decodeWord w <;> simp

/-- Settles O60: the two bytes stored at `PC` are the two the fetch reads, and together the word. -/
theorem placedWordIsFetchedNext : Obligations.PlacedWordIsFetchedNext := by
  intro s w hm
  rw [State.withFetchWord_toNat]
  exact ⟨State.placeWord_fetch hm w, s.placeWord_fault w, decodeTableWord_toNat_iff w⟩

end Sys2Proof.Machine
end

section
/-!
Control flow (spec/41_control_flow.md R80 to R87): the words of each instruction, the state `CALL` and `RET` leave, and the
moves of `PC` that leave everything else as it was.
-/

namespace Sys2Proof

/-! ### Words of one family, as the masks of spec/30_encoding.md R53 and R54 read them -/

section
variable {w v : Word}

/-- Under the family mask a word shows its family nibble. -/
theorem fieldFam_of_and_F000 (h : w &&& 0xF000 = v) : (fieldFam w).toNat = v.toNat / 4096 := by
  rw [fieldFam_toNat, ← h, and_F000_toNat]
  omega

/-- Under the mask of families 0, E and F a word shows its family nibble and its low byte. -/
theorem fields_of_and_F0FF (h : w &&& 0xF0FF = v) :
    (fieldFam w).toNat = v.toNat / 4096 ∧ (fieldNN w).toNat = v.toNat % 256 := by
  rw [fieldFam_toNat, fieldNN_toNat, ← h, and_F0FF_toNat]
  omega

theorem decodeWord_ret (h : w &&& 0xF0FF = 0x00EE) : decodeWord w = .instr .ret := by
  obtain ⟨hf, hn⟩ := fields_of_and_F0FF h
  have hnn : fieldNN w = 0xEE := BitVec.eq_of_toNat_eq hn
  simp [decodeWord, hf, decodeFamily0, hnn]

end

namespace Machine

/-! ### The call stack -/

/-- With an entry, `RET` decrements `SP` and loads `PC` from the popped entry (R80). -/
theorem exec_ret_of_pos {s : State} (h : 0 < s.sp.val) :
    exec .ret s = .next { s with sp := ⟨s.sp.val - 1, by omega⟩, pc := s.stack[s.sp.val - 1] } :=
  (if_neg h.ne').trans (congrArg Host.Outcome.next (State.popPc_of_pos (s := s.advancePc) h))

/-- With room, `CALL` stores the advanced `PC` at `STACK[SP]`, increments `SP` and jumps (R82). -/
theorem exec_call_of_lt (nnn : Addr) {s : State} (h : s.sp.val < 16) :
    exec (.call nnn) s = .next { s with
      stack := s.stack.set s.sp.val (s.pc + 2), sp := ⟨s.sp.val + 1, by omega⟩, pc := zextAddr nnn } :=
  (if_neg h.ne).trans
    (congrArg (fun t : State => Host.Outcome.next (t.setPc (zextAddr nnn)))
      (State.push_of_lt (s := s.advancePc) h (s.pc + 2)))

/-- Settles O30: `RET` pops the entry `CALL` has just stored. -/
theorem callThenReturnComesBack : Obligations.CallThenReturnComesBack := by
  intro nnn s h
  exact ⟨_, _, exec_call_of_lt nnn h, exec_ret_of_pos (Nat.succ_pos _), Vector.getElem_set_self _, rfl⟩

/-- Settles O24. -/
theorem returnPopsTheReturnAddress : Obligations.ReturnPopsTheReturnAddress := by
  refine ⟨fun _ => decodeWord_ret, fun s h => ⟨_, exec_ret_of_pos h, rfl, rfl, rfl, ?frame⟩, fun _ h => if_pos h⟩
  exact ⟨fun _ _ => rfl, fun _ => rfl, rfl, ⟨rfl, rfl⟩, rfl, rfl, rfl, rfl, rfl, rfl, rfl⟩

/-- Settles O26. -/
theorem callPushesTheAdvancedPc : Obligations.CallPushesTheAdvancedPc := by
  refine ⟨fun w hw => ?word, fun nnn s h => ⟨_, exec_call_of_lt nnn h, ?top, ?others, rfl, rfl, ?frame⟩,
    fun _ _ h => if_pos h⟩
  case word => simp [decodeWord, fieldFam_of_and_F000 hw]
  case top => exact Vector.getElem_set_self _
  case others => exact fun k hk => Vector.getElem_set_ne h k.isLt hk.symm
  case frame => exact ⟨fun _ _ => rfl, fun _ => rfl, rfl, ⟨rfl, rfl⟩, rfl, rfl, rfl, rfl, rfl, rfl, rfl⟩

/-! ### Jumps and skips -/

/-- Setting `PC` changes nothing else. -/
theorem State.setPc_movesOnlyPc (s : State) (a : Word) : MovesOnlyPc a s (s.setPc a) :=
  ⟨rfl, fun _ _ => rfl, fun _ => rfl, rfl, ⟨rfl, rfl⟩, ⟨rfl, rfl⟩, rfl, rfl, rfl, rfl, rfl, rfl, rfl⟩

/-- A skip passes the word, and an extra 2 when its condition holds (R83 to R86). -/
theorem State.skipIf_movesOnlyPc (s : State) (c : Bool) :
    MovesOnlyPc (if c then s.pc + 2 + 2 else s.pc + 2) s (s.skipIf c) := by
  cases c with
  | false => exact s.setPc_movesOnlyPc _
  | true => exact s.setPc_movesOnlyPc _

/-- A 12-bit base and a byte: the sum stays below 65536, so it does not wrap (R87). -/
theorem State.indexedTarget_toNat (s : State) (nnn : Addr) :
    (s.indexedTarget nnn).toNat = nnn.toNat + (s.getV 0).toNat := by
  have hn := nnn.isLt
  have hv := (s.getV 0).isLt
  simp only [State.indexedTarget, zextAddr, zextByte, BitVec.toNat_add, BitVec.toNat_setWidth]
  omega

/-- Settles O25. -/
theorem jumpSetsThePc : Obligations.JumpSetsThePc := by
  refine ⟨fun w hw => ?_, fun nnn s => ⟨_, rfl, s.setPc_movesOnlyPc _⟩⟩
  simp [decodeWord, fieldFam_of_and_F000 hw]

/-- Settles O27. -/
theorem immediateSkipsTestOneRegister : Obligations.ImmediateSkipsTestOneRegister := by
  refine ⟨fun w hw => ?_, fun w hw => ?_, fun x nn s => ⟨⟨_, rfl, ?_⟩, ⟨_, rfl, ?_⟩⟩⟩
  · simp [decodeWord, fieldFam_of_and_F000 hw]
  · simp [decodeWord, fieldFam_of_and_F000 hw]
  · simpa using s.skipIf_movesOnlyPc (s.getV x == nn)
  · simpa using s.skipIf_movesOnlyPc (s.getV x != nn)

/-- Settles O28. -/
theorem registerSkipsCompareTwoRegisters : Obligations.RegisterSkipsCompareTwoRegisters := by
  refine ⟨fun w hw => ?_, fun w hw => ?_, fun x y s => ⟨⟨_, rfl, ?_⟩, ⟨_, rfl, ?_⟩⟩⟩
  · simp [decodeWord, fieldFam_of_and_F000 hw]
  · simp [decodeWord, fieldFam_of_and_F000 hw]
  · simpa using s.skipIf_movesOnlyPc (s.getV x == s.getV y)
  · simpa using s.skipIf_movesOnlyPc (s.getV x != s.getV y)

/-- Settles O29: `PC` is the sum, and 4095 + 255 = 4350. -/
theorem indexedJumpAddsRegisterZero : Obligations.IndexedJumpAddsRegisterZero := by
  refine ⟨fun w hw => ?_, fun nnn s => ⟨_, rfl, s.indexedTarget_toNat nnn, ?_, s.setPc_movesOnlyPc _⟩⟩
  · simp [decodeWord, fieldFam_of_and_F000 hw]
  · have hn := nnn.isLt
    have hv := (s.getV 0).isLt
    calc (s.indexedTarget nnn).toNat = nnn.toNat + (s.getV 0).toNat := s.indexedTarget_toNat nnn
      _ ≤ 4350 := by omega

end Machine
end Sys2Proof
end

section
/-!
Loads and operations on one register without flags (spec/42_register_ops.md R90 to R95): the words of each instruction, and
the one result it writes.
-/

namespace Sys2Proof

/-- Under the mask of family 8 a word shows its family nibble and its low nibble. -/
theorem fields_of_and_F00F {w v : Word} (h : w &&& 0xF00F = v) :
    (fieldFam w).toNat = v.toNat / 4096 ∧ (fieldN w).val = v.toNat % 16 := by
  rw [fieldFam_toNat, fieldN_val, ← h, and_F00F_toNat]
  omega

namespace Machine

/-- Past the word, a write to `V[x]` changes nothing else. -/
theorem State.advancePc_setV_writesOnlyReg (s : State) (x : Reg) (b : Byte) :
    WritesOnlyReg x b s (s.advancePc.setV x b) := by
  refine ⟨State.getV_setV_self _ x b, rfl, fun r hr => ?regs, fun _ => rfl, rfl, ⟨rfl, rfl⟩, ⟨rfl, rfl⟩, rfl, ?control⟩
  case regs => exact State.getV_setV_ne _ (List.ne_of_not_mem_cons hr) b
  case control => exact ⟨rfl, rfl, rfl, rfl, rfl, rfl⟩

/-- The common end of the register handlers: no fault, and one register written. -/
theorem State.finishV_writesOnlyReg (s : State) (x : Reg) (b : Byte) :
    ∃ t, s.finishV x b = .next t ∧ WritesOnlyReg x b s t :=
  ⟨_, rfl, s.advancePc_setV_writesOnlyReg x b⟩

/-- Settles O31: each handler writes one register, and a sum of bytes is modulo 256. -/
theorem loadsAndAddImmediateWriteTheirRegister : Obligations.LoadsAndAddImmediateWriteTheirRegister := by
  refine ⟨fun w hw => ?_, fun w hw => ?_, fun w hw => ?_, fun x y nn s => ⟨?load, ?add, ?copy⟩⟩
  · simp [decodeWord, fieldFam_of_and_F000 hw]
  · simp [decodeWord, fieldFam_of_and_F000 hw]
  · simp [decodeWord, decodeFamily8, fields_of_and_F00F hw]
  case load => exact s.finishV_writesOnlyReg x nn
  case add =>
    obtain ⟨t, ht, hw⟩ := s.finishV_writesOnlyReg x (s.getV x + nn)
    have hx : t.getV x = s.getV x + nn := hw.1
    exact ⟨t, ht, hx ▸ BitVec.toNat_add _ _, hx ▸ hw⟩
  case copy => exact s.finishV_writesOnlyReg x (s.getV y)

/-- Settles O32: the low nibble chooses the operation, and each handler writes one register. -/
theorem bitwiseOperationsWriteOnlyTheirRegister : Obligations.BitwiseOperationsWriteOnlyTheirRegister := by
  refine ⟨fun w hw => ?_, fun w hw => ?_, fun w hw => ?_, fun x y s => ⟨?or, ?and, ?xor⟩⟩
  · simp [decodeWord, decodeFamily8, fields_of_and_F00F hw]
  · simp [decodeWord, decodeFamily8, fields_of_and_F00F hw]
  · simp [decodeWord, decodeFamily8, fields_of_and_F00F hw]
  case or => exact s.finishV_writesOnlyReg x (s.getV x ||| s.getV y)
  case and => exact s.finishV_writesOnlyReg x (s.getV x &&& s.getV y)
  case xor => exact s.finishV_writesOnlyReg x (s.getV x ^^^ s.getV y)

end Machine
end Sys2Proof
end

section
/-!
Arithmetic with flag side effects (spec/43_arith_flags.md R100 to R102): the words of each instruction, the flag and the
result it writes, in the order of spec/10_state.md R14.
-/

namespace Sys2Proof.Machine

/-- The flag byte of a decided condition. -/
theorem flagByte_decide (p : Prop) [Decidable p] : flagByte (decide p) = if p then 1 else 0 := by
  simp [flagByte]

/-- A difference of bytes is modulo 256. -/
theorem byte_sub_toNat (a b : Byte) : (a - b).toNat = (a.toNat + 256 - b.toNat) % 256 :=
  calc (a - b).toNat = (a.toNat + (256 - b.toNat)) % 256 := BitVec.toNat_sub' a b
    _ = (a.toNat + 256 - b.toNat) % 256 := by rw [← Nat.add_sub_assoc b.isLt.le]

/-- Past the word, VF receives the flag unless it is the destination, and `V[x]` the result; nothing else changes. -/
theorem State.advancePc_setFlagThenV_writesFlagAndReg (s : State) (x : Reg) (f : Bool) (b : Byte) :
    WritesFlagAndReg x (flagByte f) b s (s.advancePc.setFlagThenV x f b) := by
  refine ⟨?result, fun hx => ?flag, rfl, fun r hr => ?regs, fun _ => rfl, rfl, ⟨rfl, rfl⟩, ⟨rfl, rfl⟩, rfl, ?control⟩
  case result => exact State.getV_setV_self _ x b
  case flag => exact (State.getV_setV_ne _ hx.symm b).trans (State.getV_setV_self _ vf (flagByte f))
  case regs =>
    obtain ⟨hrx, hrf⟩ : r ≠ x ∧ r ≠ vf := by simpa [vf] using hr
    exact (State.getV_setV_ne _ hrx b).trans (State.getV_setV_ne _ hrf (flagByte f))
  case control => exact ⟨rfl, rfl, rfl, rfl, rfl, rfl⟩

/-- The common end of the flag writers, with the flag byte and the result's number as a statement gives them. -/
theorem State.advancePc_setFlagThenV_spec (s : State) (x : Reg) {f : Bool} {b c : Byte} {n : Nat}
    (hb : b.toNat = n) (hf : flagByte f = c) :
    ∃ t, Host.Outcome.next (s.advancePc.setFlagThenV x f b) = (.next t : Host.Outcome State Fault Refusal) ∧
      (t.getV x).toNat = n ∧ WritesFlagAndReg x c (t.getV x) s t := by
  have hw := s.advancePc_setFlagThenV_writesFlagAndReg x f b
  have hx : (s.advancePc.setFlagThenV x f b).getV x = b := State.getV_setV_self _ x b
  exact ⟨_, rfl, hx.symm ▸ hb, hx.symm ▸ hf ▸ hw⟩

/-- Settles O33: a sum of bytes is modulo 256, and both operands stand in the state before VF is written. -/
theorem addSetsCarryThenStoresTheSum : Obligations.AddSetsCarryThenStoresTheSum := by
  refine ⟨fun w hw => ?word, fun x y s => ?add⟩
  case word => simp [decodeWord, decodeFamily8, fields_of_and_F00F hw]
  case add => exact s.advancePc_setFlagThenV_spec x (BitVec.toNat_add _ _) (flagByte_decide _)

/-- Settles O34: the two handlers differ in which operand is taken from which. -/
theorem subtractionsSetNoBorrowThenStoreTheDifference :
    Obligations.SubtractionsSetNoBorrowThenStoreTheDifference := by
  refine ⟨fun w hw => ?subWord, fun w hw => ?subnWord, fun x y s => ⟨?sub, ?subn⟩⟩
  case subWord => simp [decodeWord, decodeFamily8, fields_of_and_F00F hw]
  case subnWord => simp [decodeWord, decodeFamily8, fields_of_and_F00F hw]
  case sub => exact s.advancePc_setFlagThenV_spec x (byte_sub_toNat _ _) (flagByte_decide _)
  case subn => exact s.advancePc_setFlagThenV_spec x (byte_sub_toNat _ _) (flagByte_decide _)

end Sys2Proof.Machine
end

section
/-!
Shifts by one (spec/44_shifts.md R105 to R107): the operand under either `SHIFT_SOURCE`, the bit each shift drops, and the
source halved or doubled. The flag and the result are written as in spec/43_arith_flags.md.
-/

namespace Sys2Proof.Machine

/-- R107: `VX` selects `V[x]`, the only other value `V[y]`. -/
theorem State.shiftOperand_eq (s : State) (x y : Reg) :
    s.shiftOperand x y = if s.cfg.shiftSource = .vx then s.getV x else s.getV y := by
  unfold State.shiftOperand
  cases s.cfg.shiftSource with
  | vx => rfl
  | vy => rfl

/-- The bit a right shift drops is set in the odd bytes. -/
theorem flagByte_lowBit (b : Byte) : flagByte (lowBit b) = if b.toNat % 2 = 1 then 1 else 0 := by
  have h : lowBit b = decide (b.toNat % 2 = 1) := Nat.testBit_zero b.toNat
  rw [h, flagByte_decide]

/-- The bit a left shift drops is set in the bytes from 128 up. -/
theorem flagByte_highBit (b : Byte) : flagByte (highBit b) = if b.toNat ≥ 128 then 1 else 0 := by
  have h : highBit b = decide (b.toNat ≥ 128) := BitVec.msb_eq_decide b
  rw [h, flagByte_decide]

/-- A right shift by one halves. -/
theorem byte_shiftRight_one_toNat (b : Byte) : (b >>> 1).toNat = b.toNat / 2 := by
  rw [BitVec.toNat_ushiftRight, Nat.shiftRight_eq_div_pow, pow_one]

/-- A left shift by one doubles modulo 256. -/
theorem byte_shiftLeft_one_toNat (b : Byte) : (b <<< 1).toNat = b.toNat * 2 % 256 := by
  rw [BitVec.toNat_shiftLeft, Nat.shiftLeft_eq, pow_one]

/-- Settles O35: the source is the operand of R107, read in the state before VF is written. -/
theorem shiftsStoreTheDroppedBitThenTheResult : Obligations.ShiftsStoreTheDroppedBitThenTheResult := by
  refine ⟨fun w hw => ?shrWord, fun w hw => ?shlWord, fun x y s src hsrc => ?shifts⟩
  case shrWord => simp [decodeWord, decodeFamily8, fields_of_and_F00F hw]
  case shlWord => simp [decodeWord, decodeFamily8, fields_of_and_F00F hw]
  case shifts =>
    obtain rfl : src = s.shiftOperand x y := hsrc.trans (s.shiftOperand_eq x y).symm
    constructor
    · exact s.advancePc_setFlagThenV_spec x (byte_shiftRight_one_toNat _) (flagByte_lowBit _)
    · exact s.advancePc_setFlagThenV_spec x (byte_shiftLeft_one_toNat _) (flagByte_highBit _)

end Sys2Proof.Machine
end

section
/-!
The index register and memory transfers (spec/45_memory_index.md R110 to R115): the words of family F, what `I` becomes, and
what the two stores and the bulk load write and leave unchanged.
-/

namespace Sys2Proof

/-- A word of family F with the low byte `nn`, whatever its register field, goes to that byte's row of R57. -/
theorem familyF_of_and_F0FF {w : Word} {nn : Byte} (h : w &&& 0xF0FF = wordXNN 0xF 0 nn) :
    decodeWord w = decodeFamilyF w ∧ fieldNN w = nn := by
  have hword : (wordXNN 0xF 0 nn).toNat = 0xF * 4096 + 0 * 256 + nn.toNat := wordXNN_toNat 0xF 0 nn
  obtain ⟨hf, hn⟩ := fields_of_and_F0FF h
  have hnn := nn.isLt
  have hfam : (fieldFam w).toNat = 0xF := by omega
  exact ⟨by simp [decodeWord, hfam], BitVec.eq_of_toNat_eq (by omega)⟩

namespace Machine

/-! ### The range check (spec/20_memory.md R40) -/

/-- The bytes at `I` to `I + k` all exist when the last one does. -/
theorem State.dataInRange_succ_iff (s : State) (k : Nat) : s.dataInRange (k + 1) = true ↔ s.dataAddress k ≤ 4095 := by
  simp [State.dataInRange]

theorem State.not_dataInRange_succ {s : State} {k : Nat} (h : s.dataAddress k > 4095) : ¬ s.dataInRange (k + 1) = true :=
  mt (s.dataInRange_succ_iff k).mp h.not_ge

/-! ### Runs of bytes stored from `I` -/

section
variable {s : State} (hm : Memory.wf s.cfg s.mem) {bs : List Byte}
include hm

/-- Byte `k` of a run stored from `I` stands at `I + k`. -/
theorem State.readByte_writeBytes_dataAddress (hr : s.dataAddress 0 + bs.length ≤ 4096) {k : Nat} (hk : k < bs.length) :
    (s.advancePc.writeBytes (s.dataAddress 0) bs).readByte (s.dataAddress k) = bs.getD k 0 := by
  have hin : s.dataAddress 0 ≤ s.dataAddress k ∧ s.dataAddress k < s.dataAddress 0 + bs.length := by
    simp only [State.dataAddress]; omega
  rw [State.readByte_writeBytes (s := s.advancePc) hm hr, if_pos hin]
  simp [State.dataAddress]

/-- Past the word, a run of stores changes its own bytes and nothing else. -/
theorem State.advancePc_writeBytes_frame {lo : Nat} (hr : lo + bs.length ≤ 4096) :
    KeepsMemoryOutside lo bs.length s (s.advancePc.writeBytes lo bs) ∧ (s.advancePc.writeBytes lo bs).pc = s.pc + 2 ∧
      KeepsRegsBut [] s (s.advancePc.writeBytes lo bs) ∧ KeepsRest s (s.advancePc.writeBytes lo bs) := by
  refine ⟨fun a ha => ?memory, State.writeBytes_pc _ _ _, fun r _ => State.writeBytes_getV _ _ _ r, ?rest⟩
  case memory => exact (State.readByte_writeBytes (s := s.advancePc) hm hr a).trans (if_neg ha)
  case rest => simp [KeepsRest, KeepsStack, KeepsTimers, KeepsControl]

end

/-! ### `LD B` (R113) -/

theorem exec_ldBVx_of_le {s : State} (x : Reg) (h : s.dataAddress 2 ≤ 4095) :
    exec (.ldBVx x) s = .next (s.advancePc.writeBytes (s.dataAddress 0) (decimalDigits (s.getV x))) :=
  if_pos ((s.dataInRange_succ_iff 2).mpr h)

/-- A number below 256 fits a byte. -/
theorem byte_ofNat_toNat {n : Nat} (h : n < 256) : (BitVec.ofNat 8 n).toNat = n :=
  (BitVec.toNat_ofNat n 8).trans (Nat.mod_eq_of_lt h)

/-- The hundreds, tens and ones of a byte fit a byte each. -/
theorem decimalDigits_toNat (b : Byte) :
    ((decimalDigits b).getD 0 0).toNat = b.toNat / 100 ∧ ((decimalDigits b).getD 1 0).toNat = b.toNat / 10 % 10 ∧
      ((decimalDigits b).getD 2 0).toNat = b.toNat % 10 := by
  have hb := b.isLt
  exact ⟨byte_ofNat_toNat (by omega), byte_ofNat_toNat (by omega), byte_ofNat_toNat (by omega)⟩

/-- Settles O38: the three stored bytes are the digits, and the hundreds and the tens are quotients of `V[X]`. -/
theorem decimalStoreWritesThreeDigits : Obligations.DecimalStoreWritesThreeDigits := by
  refine ⟨fun w hw => ?word, fun x s hm h => ⟨_, exec_ldBVx_of_le x h, ?stored⟩,
    fun x s h => if_neg (State.not_dataInRange_succ h)⟩
  case word => simp [decodeFamilyF, familyF_of_and_F0FF (nn := 0x33) hw]
  case stored =>
    have hr : s.dataAddress 0 + (decimalDigits (s.getV x)).length ≤ 4096 := Nat.succ_le_succ h
    have hread {k : Nat} (hk : k < 3) := State.readByte_writeBytes_dataAddress hm hr (k := k) hk
    obtain ⟨hhundreds, htens, hones⟩ := decimalDigits_toNat (s.getV x)
    rw [hread (by decide), hread (by decide), hread (by decide), hhundreds, htens, hones]
    exact ⟨rfl, rfl, rfl, by omega, State.advancePc_writeBytes_frame hm hr⟩

/-! ### `LD [I], Vx` (R114) -/

/-- Settles O39: the run stored from `I` is `V[0]` to `V[X]`, `X + 1` bytes. -/
theorem bulkStoreWritesRegistersUpToX : Obligations.BulkStoreWritesRegistersUpToX := by
  refine ⟨fun w hw => ?word,
    fun x s hm h => ⟨_, exec_ldMemVx_of_le h, fun r => State.storeRegs_readByte hm h, ?frame⟩,
    fun x s h => if_neg (State.not_dataInRange_succ h)⟩
  case word => simp [decodeFamilyF, familyF_of_and_F0FF (nn := 0x55) hw]
  case frame =>
    have hlen : ((regsUpTo x).map s.getV).length = x.val + 1 := by simp [regsUpTo_length]
    have hr : s.dataAddress 0 + ((regsUpTo x).map s.getV).length ≤ 4096 := hlen ▸ Nat.succ_le_succ h
    exact hlen ▸ State.advancePc_writeBytes_frame hm hr

/-! ### `LD Vx, [I]` (R115) -/

theorem exec_ldVxMem_of_le {s : State} {x : Reg} (h : s.dataAddress x.val ≤ 4095) :
    exec (.ldVxMem x) s = .next (s.advancePc.loadRegs (regsUpTo x)) :=
  if_pos ((s.dataInRange_succ_iff x.val).mpr h)

/-- A register up to `x` receives the byte at its own effective address. -/
theorem State.loadRegs_getV_of_le (s : State) {x r : Reg} (hr : r ≤ x) :
    (s.advancePc.loadRegs (regsUpTo x)).getV r = s.readByte (s.dataAddress r.val) :=
  (State.loadRegs_getV _ _ r).trans (if_pos ((mem_regsUpTo x r).mpr hr))

/-- A register above `x` keeps its value. -/
theorem State.loadRegs_getV_of_lt (s : State) {x r : Reg} (hr : x < r) :
    (s.advancePc.loadRegs (regsUpTo x)).getV r = s.getV r :=
  (State.loadRegs_getV _ _ r).trans (if_neg fun hmem => hr.not_ge ((mem_regsUpTo x r).mp hmem))

/-- Settles O40: the load writes registers up to X alone, each from its own address. -/
theorem bulkLoadReadsRegistersUpToX : Obligations.BulkLoadReadsRegistersUpToX := by
  refine ⟨fun w hw => ?word, fun x s h => ⟨_, exec_ldVxMem_of_le h, fun r => s.loadRegs_getV_of_le,
    fun r => s.loadRegs_getV_of_lt, State.loadRegs_pc _ _, State.loadRegs_readByte _ _, ?rest⟩,
    fun x s h => if_neg (State.not_dataInRange_succ h)⟩
  case word => simp [decodeFamilyF, familyF_of_and_F0FF (nn := 0x65) hw]
  case rest => simp [KeepsRest, KeepsStack, KeepsTimers, KeepsControl]

/-- Settles O41: the dump keeps `I`, so the load reads each register back from the address it was stored at. -/
theorem registerDumpThenLoadRoundTrips : Obligations.RegisterDumpThenLoadRoundTrips := by
  intro x s other hm h
  have hi (k : Nat) : State.dataAddress { s.storeRegs x with v := other } k = s.dataAddress k := by
    simp [State.dataAddress, State.storeRegs]
  refine ⟨_, _, exec_ldMemVx_of_le h, exec_ldVxMem_of_le ((hi _).trans_le h), fun r hr => ?_⟩
  rw [State.loadRegs_getV_of_le _ hr, hi]
  exact State.storeRegs_readByte hm h hr

/-! ### The index register (R110 to R112) -/

/-- Past the word, a write to `I` changes nothing else. -/
theorem State.advancePc_setI_writesOnlyIndex (s : State) (a : Word) : WritesOnlyIndex a s (s.advancePc.setI a) :=
  ⟨rfl, rfl, fun _ _ => rfl, fun _ => rfl, ⟨rfl, rfl⟩, ⟨rfl, rfl⟩, rfl, rfl, rfl, rfl, rfl, rfl, rfl⟩

/-- R5: the font lies inside memory. -/
theorem fontBase_le_of_wf {c : Config} (hc : c.wf = true) : c.fontBase.toNat + 80 ≤ 4096 := by
  simp only [Config.wf, Config.fontInMemory, Bool.and_eq_true, decide_eq_true_eq] at hc
  exact hc.2

/-- With the font inside memory the glyph address does not wrap (R112). -/
theorem glyphAddress_toNat {c : Config} (hc : c.wf = true) (b : Byte) :
    (glyphAddress c b).toNat = c.fontBase.toNat + 5 * (b.toNat % 16) := by
  have hfont := fontBase_le_of_wf hc
  simp only [glyphAddress, BitVec.toNat_add, BitVec.toNat_ofNat]
  omega

/-- The sum of R111 is modulo 65536. -/
theorem add_zextByte_toNat (a : Word) (b : Byte) : (a + zextByte b).toNat = (a.toNat + b.toNat) % 65536 := by
  have hb := b.isLt
  simp only [zextByte, BitVec.toNat_add, BitVec.toNat_setWidth]
  omega

/-- Settles O36: both handlers write `I` alone, and a glyph address stays inside memory. -/
theorem indexLoadsSetTheIndexRegister : Obligations.IndexLoadsSetTheIndexRegister := by
  refine ⟨fun w hw => ?loadWord, fun w hw => ?glyphWord, fun nnn s => ⟨_, rfl, s.advancePc_setI_writesOnlyIndex _⟩,
    fun x s hc => ⟨_, rfl, glyphAddress_toNat hc (s.getV x), s.advancePc_setI_writesOnlyIndex _⟩⟩
  case loadWord => simp [decodeWord, fieldFam_of_and_F000 hw]
  case glyphWord => simp [decodeFamilyF, familyF_of_and_F0FF (nn := 0x29) hw]

/-- Settles O37: the handler writes `I` alone, by a 16-bit sum. -/
theorem addToIndexWrapsWithoutFlag : Obligations.AddToIndexWrapsWithoutFlag := by
  refine ⟨fun w hw => ?word,
    fun x s => ⟨_, rfl, add_zextByte_toNat s.i (s.getV x), s.advancePc_setI_writesOnlyIndex _⟩⟩
  simp [decodeFamilyF, familyF_of_and_F0FF (nn := 0x1E) hw]

end Machine
end Sys2Proof
end

section
/-!
The random byte (spec/46_random.md R120, R121): what `RND` does with it, and that no other instruction reads it.
-/

namespace Sys2Proof.Machine

/-! ### The other instructions (R121) -/

/-- No handler writes `IR`. -/
theorem exec_ir {i : Instr} {s t : State} (h : exec i s = .next t) : t.ir = s.ir := by
  rcases exec_next_cases h with ⟨f, rfl⟩ | ⟨hir, _⟩
  · rfl
  · exact hir

/-- No handler but `LD ST` writes `ST`. -/
theorem exec_st {i : Instr} {s t : State} (hs : ∀ x, i ≠ .ldStVx x) (h : exec i s = .next t) : t.st = s.st := by
  rcases exec_next_inv h with ⟨f, _, rfl⟩ | ⟨_, hc⟩
  · rfl
  · exact hc.st_eq hs

/-- Settles O22: `LD ST` reads one register; every other handler carries the random bytes along beside `IR` and `ST`, which
here keep their values. -/
theorem randomByteReachesOnlyRnd : Obligations.RandomByteReachesOnlyRnd := by
  intro i s t bytes n hr h
  by_cases hs : ∃ x, i = .ldStVx x
  · obtain ⟨x, rfl⟩ := hs
    injection h with h
    exact h ▸ rfl
  · have hs : ∀ x, i ≠ .ldStVx x := by simpa using hs
    have hu := exec_withUnread hr hs h s.ir s.st bytes n
    have ht : t.withUnread s.ir s.st bytes n = { t with rndIn := bytes, draws := n } := by
      rw [← exec_ir h, ← exec_st hs h]
      rfl
    exact ht ▸ hu

/-! ### `RND` (R120) -/

/-- Settles O44: the handler writes one register, and a supplied byte is the first of the host's list. -/
theorem randomIsMaskedWithTheImmediate : Obligations.RandomIsMaskedWithTheImmediate := by
  refine ⟨fun w hw => ?word, fun x nn s => ⟨_, rfl, s.advancePc_setV_writesOnlyReg x (s.rndByte &&& nn)⟩,
    fun s r rest => State.rndByte_cons⟩
  case word => simp [decodeWord, fieldFam_of_and_F000 hw]

end Sys2Proof.Machine
end

section
/-!
Input (spec/47_input.md R125 to R127): the words of the three instructions, the skips on the level of one key, and the key
wait.
-/

namespace Sys2Proof

/-- A word that shows a family and a low byte under the mask of families 0, E and F has these two fields, whatever its
register field. -/
theorem fields_of_and_F0FF_eq_wordXNN {w : Word} {fam : BitVec 4} {nn : Byte} (h : w &&& 0xF0FF = wordXNN fam 0 nn) :
    fieldFam w = fam ∧ fieldNN w = nn := by
  have hword : (wordXNN fam 0 nn).toNat = fam.toNat * 4096 + 0 * 256 + nn.toNat := wordXNN_toNat fam 0 nn
  obtain ⟨hf, hn⟩ := fields_of_and_F0FF h
  have hnn := nn.isLt
  exact ⟨BitVec.eq_of_toNat_eq (by omega), BitVec.eq_of_toNat_eq (by omega)⟩

namespace Machine

/-- Register number `j` stands at place `j` of the ascending list. -/
theorem allRegs_getElem : ∀ j : Reg, allRegs[j.val]? = some j := by decide

/-- The least pressed key is `j` when `j` is down and every lower key is up (R127; D12). -/
theorem State.lowestKey_eq_some {s : State} {j : Fin 16} (hj : s.key.getLsbD j.val = true)
    (hlow : ∀ k : Fin 16, k < j → s.key.getLsbD k.val = false) : s.lowestKey = some j := by
  obtain ⟨hlen, hget⟩ := List.getElem?_eq_some_iff.mp (allRegs_getElem j)
  refine List.find?_eq_some_iff_getElem.mpr ⟨hj, j.val, hlen, hget, fun k hk => ?_⟩
  obtain ⟨_, hgetk⟩ := List.getElem?_eq_some_iff.mp (allRegs_getElem ⟨k, hk.trans j.isLt⟩)
  rw [hgetk, State.keyDown, hlow _ hk]
  rfl

/-- The rewind of the key wait undoes the advance past the word (R127). -/
@[simp] theorem State.advancePc_rewindPc (s : State) : s.advancePc.rewindPc = s := by
  have hpc : s.pc + 2 - 2 = s.pc := BitVec.add_sub_cancel _ _
  exact congrArg s.setPc hpc

/-- With a least pressed key the wait ends: that key goes to `V[x]` (R127). -/
theorem exec_ldVxK_of_some {s : State} {j : Fin 16} (x : Reg) (h : s.lowestKey = some j) :
    exec (.ldVxK x) s = .next (s.advancePc.setV x (BitVec.ofNat 8 j.val)) := by
  simp only [exec, execLdVxK, h]

/-- With no key down the wait goes on, in the same state (R127). -/
theorem exec_ldVxK_of_none {s : State} (x : Reg) (h : s.lowestKey = none) : exec (.ldVxK x) s = .next s := by
  simp only [exec, execLdVxK, h, State.advancePc_rewindPc]

/-- Settles O47: the handler finds the least pressed key, and none only when every key is up. -/
theorem keyWaitStoresTheLeastKeyOrRepeats : Obligations.KeyWaitStoresTheLeastKeyOrRepeats := by
  refine ⟨fun w hw => ?word, fun x s j hj hlow => ?stores, fun x s hup => ?repeats⟩
  case word => simp [decodeFamilyF, familyF_of_and_F0FF (nn := 0x0A) hw]
  case stores =>
    exact ⟨_, exec_ldVxK_of_some x (State.lowestKey_eq_some hj hlow), s.advancePc_setV_writesOnlyReg x _⟩
  case repeats =>
    have h0 : s.key = 0 := BitVec.eq_of_getLsbD_eq fun k hk => (hup ⟨k, hk⟩).trans BitVec.getLsbD_zero.symm
    exact exec_ldVxK_of_none x (s.lowestKey_eq_none_iff.mpr h0)

/-- Settles O46: up to 15 both handlers are skips on the key's level, above 15 both raise. -/
theorem keySkipsTestTheNumberedKey : Obligations.KeySkipsTestTheNumberedKey := by
  refine ⟨fun w hw => ?skpWord, fun w hw => ?sknpWord,
    fun x s hk => ⟨⟨_, if_neg hk.not_gt, ?skp⟩, ⟨_, if_neg hk.not_gt, ?sknp⟩⟩, fun x s hk => ⟨if_pos hk, if_pos hk⟩⟩
  case skpWord => simp [decodeWord, decodeFamilyE, fields_of_and_F0FF_eq_wordXNN (fam := 0xE) (nn := 0x9E) hw]
  case sknpWord => simp [decodeWord, decodeFamilyE, fields_of_and_F0FF_eq_wordXNN (fam := 0xE) (nn := 0xA1) hw]
  case skp => exact s.skipIf_movesOnlyPc (s.keyDown (s.getV x).toNat)
  case sknp => simpa [State.keyDown] using s.skipIf_movesOnlyPc (!s.keyDown (s.getV x).toNat)

end Machine
end Sys2Proof
end

section
/-!
Display (spec/48_display.md R130 to R133): the words of the two instructions, the edge rule, and a drawing read through
the pixels its sprite covers.
-/

namespace Sys2Proof.Machine

/-! ### The edge rule and `CLS` -/

/-- Settles O49. -/
theorem coordinatesWrapOrClip : Obligations.CoordinatesWrapOrClip := by
  refine ⟨fun x y => ⟨_, _, rfl, rfl, rfl⟩, fun x y hx hy => ?inside, fun x y h => ?outside⟩
  case inside =>
    have hin : x < 64 ∧ y < 32 := by omega
    exact ⟨_, _, dif_pos hin, rfl, rfl⟩
  case outside =>
    have hout : ¬(x < 64 ∧ y < 32) := by omega
    exact dif_neg hout

/-- Settles O48. -/
theorem clearTurnsEveryPixelOff : Obligations.ClearTurnsEveryPixelOff := by
  refine ⟨fun w hw => ?word, fun s => ⟨_, rfl, Framebuffer.pixel_dark, rfl, ?frame⟩⟩
  case word => simp [decodeWord, decodeFamily0, fields_of_and_F0FF_eq_wordXNN (fam := 0x0) (nn := 0xE0) hw]
  case frame => exact ⟨fun _ _ => rfl, fun _ => rfl, rfl, ⟨rfl, rfl⟩, ⟨rfl, rfl⟩, rfl, rfl, rfl, rfl, rfl, rfl⟩

/-! ### What `DRW` leaves -/

/-- The picture `DRW` draws over the framebuffer of `s`, and whether it collided (R132). -/
def State.canvas (s : State) (x y : Reg) (n : Fin 16) : Canvas :=
  drawSprite s.cfg.drawEdge (s.getV x).toNat (s.getV y).toNat (s.readBytes (s.dataAddress 0) n.val) (s.fb, false)

/-- The positions at which that sprite has a set bit. -/
def State.canvasPoints (s : State) (x y : Reg) (n : Fin 16) : List (Nat × Nat) :=
  spritePoints (s.getV x).toNat (s.getV y).toNat (s.readBytes (s.dataAddress 0) n.val)

/-- The state `DRW` leaves when its bytes all exist. -/
def State.drawn (s : State) (x y : Reg) (n : Fin 16) : State :=
  (s.advancePc.setFb (s.canvas x y n).1).setV vf (flagByte (s.canvas x y n).2)

/-- The bytes of a sprite all exist when there are none or the last one does (spec/20_memory.md R40). -/
theorem State.dataInRange_iff_last (s : State) (len : Nat) :
    s.dataInRange len = true ↔ len = 0 ∨ s.dataAddress (len - 1) ≤ 4095 := by
  simp [State.dataInRange]

section
variable {s : State} {x y : Reg} {n : Fin 16}

theorem exec_drw_of_inRange (h : n.val = 0 ∨ s.dataAddress (n.val - 1) ≤ 4095) :
    exec (.drw x y n) s = .next (s.drawn x y n) :=
  if_pos ((s.dataInRange_iff_last n.val).mpr h)

variable (s x y n)

theorem State.canvas_eq_plot :
    s.canvas x y n = plot s.cfg.drawEdge (s.canvasPoints x y n) (s.fb, false) :=
  drawSprite_eq_plot _ _ _ _ _

/-- A sprite of at most 15 rows names no pixel twice (R133). -/
theorem State.canvasPoints_apart : Apart s.cfg.drawEdge (s.canvasPoints x y n) := by
  apply spritePoints_apart
  rw [State.readBytes_length]
  omega

/-- The positions fall on the covered pixels: row `r` of the sprite is the byte at `I + r` (R131). -/
theorem State.exists_canvasPoint_iff_spriteCovers (py : Fin 32) (px : Fin 64) :
    (∃ a ∈ s.canvasPoints x y n, coord s.cfg.drawEdge a.1 a.2 = some (px, py)) ↔ SpriteCovers s x y n.val py px := by
  have hbyte {r : Nat} (hr : r < n.val) :
      (s.readBytes (s.dataAddress 0) n.val).getD r 0 = s.readByte (s.dataAddress r) :=
    State.readBytes_getD hr
  simp only [State.canvasPoints, mem_spritePoints, State.readBytes_length, SpriteCovers]
  constructor
  · rintro ⟨_, ⟨r, hr, c, hc, hbit, rfl⟩, hq⟩
    exact ⟨r, hr, c, hc, hbyte hr ▸ hbit, hq⟩
  · rintro ⟨r, hr, c, hc, hbit, hq⟩
    exact ⟨_, ⟨r, hr, c, hc, hbyte hr ▸ hbit, rfl⟩, hq⟩

/-- A pixel changes exactly when the sprite covers it. -/
theorem State.drawn_pixel_ne_iff (py : Fin 32) (px : Fin 64) :
    Framebuffer.pixel (s.drawn x y n).fb py px ≠ Framebuffer.pixel s.fb py px ↔ SpriteCovers s x y n.val py px := by
  have hfb : (s.drawn x y n).fb = (s.canvas x y n).1 := rfl
  rw [hfb, State.canvas_eq_plot, plot_pixel (s.canvasPoints_apart x y n),
    ← State.exists_canvasPoint_iff_spriteCovers]
  cases Framebuffer.pixel s.fb py px <;> simp

/-- A collision is a covered pixel that was on. -/
theorem State.canvas_collision_iff :
    (s.canvas x y n).2 = true ↔ ∃ py px, SpriteCovers s x y n.val py px ∧ Framebuffer.pixel s.fb py px = true := by
  rw [State.canvas_eq_plot, plot_collision (s.canvasPoints_apart x y n)]
  simp only [State.exists_canvasPoint_iff_spriteCovers, Bool.false_eq_true, false_or]

theorem State.drawn_vf : (s.drawn x y n).getV 15 = flagByte (s.canvas x y n).2 := State.getV_setV_self _ vf _

/-- VF reports the collision. -/
theorem State.drawn_vf_eq_one_iff :
    (s.drawn x y n).getV 15 = 1 ↔ ∃ py px, SpriteCovers s x y n.val py px ∧ Framebuffer.pixel s.fb py px = true := by
  rw [State.drawn_vf, ← State.canvas_collision_iff]
  cases (s.canvas x y n).2 <;> decide

theorem State.drawn_vf_eq_zero
    (h : ¬ ∃ py px, SpriteCovers s x y n.val py px ∧ Framebuffer.pixel s.fb py px = true) :
    (s.drawn x y n).getV 15 = 0 := by
  rw [State.drawn_vf, Bool.eq_false_iff.mpr (mt (s.canvas_collision_iff x y n).mp h)]
  rfl

/-- `DRW` changes `PC`, VF and the framebuffer alone. -/
theorem State.drawn_frame : (s.drawn x y n).pc = s.pc + 2 ∧ KeepsRegsBut [15] s (s.drawn x y n) ∧
    KeepsMemory s (s.drawn x y n) ∧ (s.drawn x y n).i = s.i ∧ KeepsStack s (s.drawn x y n) ∧
    KeepsTimers s (s.drawn x y n) ∧ KeepsControl s (s.drawn x y n) :=
  ⟨rfl, fun _ hr => State.getV_setV_ne _ (List.ne_of_not_mem_cons hr) _, fun _ => rfl, rfl, ⟨rfl, rfl⟩, ⟨rfl, rfl⟩,
    rfl, rfl, rfl, rfl, rfl, rfl⟩

end

/-- Settles O50. -/
theorem drawTogglesExactlyTheCoveredPixels : Obligations.DrawTogglesExactlyTheCoveredPixels := by
  refine ⟨fun w hw => ?word, fun x y n s h => ⟨_, exec_drw_of_inRange h, fun py px hc => ?covered,
    fun py px hc => ?uncovered, (s.drawn_vf_eq_one_iff x y n).mpr, s.drawn_vf_eq_zero x y n, s.drawn_frame x y n⟩⟩
  case word => simp [decodeWord, fieldFam_of_and_F000 hw]
  case covered => exact Bool.eq_not_of_ne ((s.drawn_pixel_ne_iff x y n py px).mpr hc)
  case uncovered => exact not_not.mp (mt (s.drawn_pixel_ne_iff x y n py px).mp hc)

/-- Settles O51: the range check fails, so the handler raises on the state it was given. -/
theorem drawPastMemoryRaisesDataRange : Obligations.DrawPastMemoryRaisesDataRange := by
  intro x y n s hn h
  have hr : ¬ s.dataInRange n.val = true := by
    rw [State.dataInRange_iff_last]
    omega
  exact if_neg hr

/-! ### The same `DRW` twice -/

/-- After a draw with neither coordinate in VF, the same sprite stands at the same place. -/
theorem spriteCovers_drawn_iff {s : State} {x y : Reg} {n : Fin 16} (hx : x ≠ 15) (hy : y ≠ 15) (py : Fin 32)
    (px : Fin 64) : SpriteCovers (s.drawn x y n) x y n.val py px ↔ SpriteCovers s x y n.val py px := by
  have hvx : (s.drawn x y n).getV x = s.getV x := State.getV_setV_ne _ hx _
  have hvy : (s.drawn x y n).getV y = s.getV y := State.getV_setV_ne _ hy _
  rw [SpriteCovers, hvx, hvy]
  rfl

/-- A bit is back after two operations exactly when both changed it or neither did. -/
theorem bit_eq_iff_changes_agree : ∀ a b c : Bool, c = a ↔ (b ≠ a ↔ c ≠ b) := by decide

/-- Settles O52: a pixel that each draw covers changes twice, and the second draw collides where the first turned a
pixel on. -/
theorem drawingTwiceRestoresTheFramebuffer : Obligations.DrawingTwiceRestoresTheFramebuffer := by
  intro x y n s h
  have hback (py : Fin 32) (px : Fin 64) :
      Framebuffer.pixel ((s.drawn x y n).drawn x y n).fb py px = Framebuffer.pixel s.fb py px ↔
        (SpriteCovers s x y n.val py px ↔ SpriteCovers (s.drawn x y n) x y n.val py px) := by
    rw [← State.drawn_pixel_ne_iff, ← State.drawn_pixel_ne_iff]
    exact bit_eq_iff_changes_agree _ _ _
  refine ⟨_, _, exec_drw_of_inRange h, exec_drw_of_inRange (s := s.drawn x y n) h, hback,
    fun hx hy => ⟨?restored, ?collision⟩⟩
  case restored =>
    exact Framebuffer.ext_pixel fun py px => (hback py px).mpr (spriteCovers_drawn_iff hx hy py px).symm
  case collision =>
    rw [State.drawn_vf_eq_one_iff]
    refine exists₂_congr fun py px => ?_
    rw [spriteCovers_drawn_iff hx hy]
    refine and_congr_right fun hc => ?_
    rw [Bool.eq_not_of_ne ((s.drawn_pixel_ne_iff x y n py px).mpr hc), Bool.not_eq_true']

end Sys2Proof.Machine
end

section
/-!
The timer instructions (spec/49_timers.md R140 to R142): the words of family F, the one timer or register each handler
writes, and the tick of the step that sets `DT`.
-/

namespace Sys2Proof.Machine

/-- Settles O53: each handler writes one register or one timer. -/
theorem delayReadAndSoundSetMoveOneTimer : Obligations.DelayReadAndSoundSetMoveOneTimer := by
  refine ⟨fun w hw => ?readWord, fun w hw => ?setWord,
    fun x s => ⟨⟨_, rfl, s.advancePc_setV_writesOnlyReg x s.dt⟩, ⟨_, rfl, rfl, rfl, rfl, ?frame⟩⟩⟩
  case readWord => simp [decodeFamilyF, familyF_of_and_F0FF (nn := 0x07) hw]
  case setWord => simp [decodeFamilyF, familyF_of_and_F0FF (nn := 0x18) hw]
  case frame => exact ⟨fun _ _ => rfl, fun _ => rfl, rfl, ⟨rfl, rfl⟩, rfl, rfl, rfl, rfl, rfl, rfl, rfl⟩

/-- Under `PER_STEP` a timer is counted down once, stopping at 0 (spec/40_step_cycle.md R76). -/
theorem tickedTimer_toNat_of_perStep {c : Config} (hc : c.timerTick = .perStep) (b : Byte) :
    (tickedTimer c b).toNat = b.toNat - 1 := by
  rw [tickedTimer, if_pos hc]
  split
  case isTrue h0 => rw [h0]; rfl
  case isFalse h0 => bv_omega

/-- Under `EXTERNAL` no step ticks a timer (spec/40_step_cycle.md R77). -/
theorem tickedTimer_of_external {c : Config} (hc : c.timerTick = .external) (b : Byte) : tickedTimer c b = b :=
  if_neg (by simp [hc])

/-- A step that runs `LD DT, Vx` leaves `DT` ticked from `V[x]` (R141). -/
theorem step_of_decoded_ldDtVx {s : State} {x : Reg} (h0 : s.fault = 0) (hpc : s.pc.toNat ≤ 4094)
    (hd : decodeWord (wordOfBytes (s.readByte s.pc.toNat) (s.readByte (s.pc.toNat + 1))) = .instr (.ldDtVx x)) :
    ∃ t, step s = .next t ∧ t.dt = tickedTimer s.cfg (s.getV x) := by
  have hf : (s.advancePc.setDt (s.getV x)).fault = 0 := h0
  refine ⟨_, step_of_decoded h0 hpc hd rfl, ?_⟩
  rw [State.finishStep_ticked hf]
  rfl

/-- Settles O54: the handler writes `DT` alone, and the tick of the step follows it. -/
theorem delaySetIsTickedInItsOwnStep : Obligations.DelaySetIsTickedInItsOwnStep := by
  refine ⟨fun w hw => ?word, fun x s => ⟨_, rfl, rfl, rfl, rfl, ?frame⟩, fun x s h0 hpc hd => ?step⟩
  case word => simp [decodeFamilyF, familyF_of_and_F0FF (nn := 0x15) hw]
  case frame => exact ⟨fun _ _ => rfl, fun _ => rfl, rfl, ⟨rfl, rfl⟩, rfl, rfl, rfl, rfl, rfl, rfl, rfl⟩
  case step =>
    obtain ⟨t, ht, hdt⟩ := step_of_decoded_ldDtVx h0 hpc hd
    exact ⟨t, ht, fun hc => hdt ▸ tickedTimer_toNat_of_perStep hc _, fun hc => hdt ▸ tickedTimer_of_external hc _⟩

end Sys2Proof.Machine
end

section
/-!
Faults (spec/60_exceptions.md R150 to R162): every instruction and every step answers a next state, which fault an
instruction raises and when, and that a step that raises one changes nothing but `FAULT`.
-/

namespace Sys2Proof.Machine

/-! ### Every step answers (R162; log 6) -/

theorem exec_answers (i : Instr) (s : State) : ∃ t, exec i s = .next t := by
  rcases exec_cases i s with ⟨f, _, he⟩ | ⟨_, t, he, _⟩
  · exact ⟨_, he⟩
  · exact ⟨t, he⟩

theorem dispatch_answers (w : Word) (s : State) : ∃ t, dispatch w s = .next t := by
  rcases decodeWord_total w with ⟨i, hd⟩ | hd
  · obtain ⟨t, he⟩ := exec_answers i s
    exact ⟨t, by simp only [dispatch, hd, he]⟩
  · exact ⟨_, dispatch_of_unrecognised hd s⟩

theorem step_answers (s : State) : ∃ t, step s = .next t := by
  by_cases h0 : s.fault = 0
  · cases hf : s.fetch with
    | none => exact ⟨_, step_of_fetch_none h0 hf⟩
    | some w =>
      obtain ⟨t, hd⟩ := dispatch_answers w s
      exact ⟨_, step_of_dispatch h0 hf hd⟩
  · exact ⟨s, step_of_fault h0⟩

/-- Settles O10. -/
theorem everyStepAnswersANextState : Obligations.EveryStepAnswersANextState := ⟨exec_answers, step_answers⟩

/-! ### Faults are precise (R162) -/

/-- A handler that leaves a fault has raised it on the state it was given. -/
theorem exec_raises_inv {i : Instr} {s t : State} (h0 : s.fault = 0) (h : exec i s = .next t) (ht : t.fault ≠ 0) :
    ∃ f, t = s.raise f := by
  rcases exec_next_inv h with ⟨f, _, he⟩ | ⟨_, hc⟩
  · exact ⟨f, he⟩
  · exact absurd (hc.fault_eq.trans h0) ht

/-- A step that leaves a fault has raised it on the state it began in. -/
theorem step_raises_inv {s t : State} (h0 : s.fault = 0) (h : step s = .next t) (ht : t.fault ≠ 0) :
    ∃ f, t = s.raise f := by
  rcases step_next_cases h with ⟨hne, _⟩ | ⟨_, _, he⟩ | ⟨_, w, u, _, hd, rfl⟩
  · exact absurd h0 hne
  · exact ⟨_, he⟩
  · rw [State.finishStep_fault] at ht
    rw [State.finishStep_of_fault ht]
    rcases dispatch_next_cases hd with ⟨i, _, he⟩ | ⟨_, rfl⟩
    · exact exec_raises_inv h0 he ht
    · exact absurd h0 ht

theorem Fault.code_mem (f : Fault) : f.code ∈ ([1, 2, 3, 4, 5] : List Byte) := by
  cases f <;> decide

/-- Settles O11. -/
theorem aFaultingStepChangesOnlyFault : Obligations.AFaultingStepChangesOnlyFault := by
  intro s t h0 h ht
  obtain ⟨f, rfl⟩ := step_raises_inv h0 h ht
  exact ⟨rfl, f.code_mem⟩

/-! ### Which fault, and when (R155, R161) -/

/-- What an instruction leaves in `FAULT`: the code of the fault it raises, 0 where it raises none. -/
def faultCode : Option Fault → Byte
  | some f => f.code
  | none   => 0

theorem exec_fault_eq {i : Instr} {s t : State} (h0 : s.fault = 0) (h : exec i s = .next t) :
    t.fault = faultCode (faultOf i s) := by
  rcases exec_next_inv h with ⟨f, hf, rfl⟩ | ⟨hf, hc⟩
  · rw [hf]
    rfl
  · rw [hf]
    exact hc.fault_eq.trans h0

/-- A fault raised on a condition leaves its code on that condition. -/
theorem faultCode_ite (p : Prop) [Decidable p] (f : Fault) :
    faultCode (if p then some f else none) = if p then f.code else 0 := by
  split <;> rfl

/-- `DATA_RANGE` is raised exactly on a condition that says a byte is missing. -/
theorem faultCode_dataInRange {s : State} {len : Nat} {p : Prop} [Decidable p] (hp : s.dataInRange len = true ↔ ¬ p) :
    faultCode (if s.dataInRange len then none else some .dataRange) = if p then 4 else 0 := by
  by_cases h : p
  · rw [if_neg (mt hp.mp (not_not.mpr h)), if_pos h]
    rfl
  · rw [if_pos (hp.mpr h), if_neg h]
    rfl

/-- Settles O12: the fault is the one of `faultOf`, its range check said in terms of `I`. -/
theorem faultsArisePreciselyOnTheirConditions : Obligations.FaultsArisePreciselyOnTheirConditions := by
  intro i s t h0 h
  rw [exec_fault_eq h0 h]
  cases i with
  | call | ret | skp | sknp => exact faultCode_ite _ _
  | drw | ldBVx | ldMemVx | ldVxMem => exact faultCode_dataInRange (by rw [State.dataInRange_iff]; omega)
  | _ => rfl

end Sys2Proof.Machine
end

section
/-!
Initialize and Load (spec/70_reset_and_hazards.md R180, R183).
-/

namespace Sys2Proof.Machine

/-- Settles O57: `Initialize` reads the configuration alone, and keeps it. -/
theorem initializeIgnoresTheStateBefore : Obligations.InitializeIgnoresTheStateBefore :=
  fun _ _ => ⟨rfl, rfl, congrArg State.initial, rfl, rfl⟩

/-- Byte `j` of a run of writes stands `j` past its start. -/
theorem State.readByte_writeBytes_add {s : State} (hm : Memory.wf s.cfg s.mem) {a j : Nat} {bs : List Byte}
    (hr : a + bs.length ≤ 4096) (hj : j < bs.length) : (s.writeBytes a bs).readByte (a + j) = bs[j] := by
  rw [State.readByte_writeBytes hm hr, if_pos (by omega), Nat.add_sub_cancel_left, List.getD_eq_getElem _ _ hj]

/-- Settles O58: an image that fits is one run of writes from the origin, inside memory. -/
theorem loadCopiesTheWholeImageOrNothing : Obligations.LoadCopiesTheWholeImageOrNothing := by
  intro s image hc hm
  have ho := programOrigin_le_of_wf hc
  rcases s.load_cases image with ⟨hlen, he⟩ | ⟨hlen, he⟩
  · exact ⟨fun _ => he, fun h => absurd h hlen.not_ge⟩
  · have hr : s.cfg.programOrigin.toNat + image.length ≤ 4096 := by omega
    refine ⟨fun h => absurd hlen h.not_ge, fun _ => ⟨_, he, fun j hj => State.readByte_writeBytes_add hm hr hj,
      fun a ha => ?outside, State.writeBytes_pc _ _ _, fun r _ => State.writeBytes_getV _ _ _ r, ?rest⟩⟩
    case outside => rw [State.readByte_writeBytes hm hr, if_neg ha]
    case rest => simp [KeepsRest, KeepsStack, KeepsTimers, KeepsControl]

end Sys2Proof.Machine
end
